-- ==== Sys2Proof/Word.lean ====
section
/-! DEFINITION. The word types of the block and their plainest arithmetic (00_scope.md R6, R8). -/

namespace Sys2Proof

/-- An 8-bit value: a general register, a timer, a memory cell, the immediate `kk` (R6 `REG_WIDTH`, `TIMER_WIDTH`). -/
abbrev Byte := BitVec 8

/-- A 16-bit value: an opcode, `PC`, `I`, a return address (R6 `OPCODE_WIDTH`, `PC_WIDTH`, `I_WIDTH`, `STACK_ENTRY_WIDTH`). -/
abbrev Word := BitVec 16

/-- The 12-bit address immediate `nnn` (30_encoding.md R70). -/
abbrev Addr := BitVec 12

/-- A general register's index, 0..15; in range by construction (10_state.md R20). -/
abbrev Reg := Fin 16

/-- `VF`, the register that is also the flag register (10_state.md R21). -/
abbrev VF : Reg := 15

/-- `u8(v) = v mod 256` (R8). -/
abbrev u8 (v : Nat) : Byte := BitVec.ofNat 8 v

/-- `u16(v) = v mod 65536` (R8). -/
abbrev u16 (v : Nat) : Word := BitVec.ofNat 16 v

end Sys2Proof
end

