-- ==== Sys2Proof/Config.lean ====
section
/-! DEFINITION. What an instance of the block fixes (00_scope.md R6), and the one free value (42_alu.md R132). -/

namespace Sys2Proof

/-- `MEM_SIZE` (R6): memory cells 0x000..0xFFF. -/
abbrev Config.memSize : Nat := 4096

/-- `STACK_DEPTH` (R6). -/
abbrev Config.stackDepth : Nat := 16

/-- `NUM_KEYS` (R6). -/
abbrev Config.numKeys : Nat := 16

/-- `SPRITE_MAX_ROWS` (R6). -/
abbrev Config.spriteMaxRows : Nat := 15

/-- `SPRITE_WIDTH` (R6). -/
abbrev Config.spriteWidth : Nat := 8

/-- `GLYPH_BYTES` (R6): the factor of `Vx*5` in Fx29. -/
abbrev Config.glyphBytes : Nat := 5

/-- `PROGRAM_BASE` (R6): where the loader puts the program image. -/
abbrev Config.programBase : Nat := 0x200

/-- FREE VALUE (log 2). `Config.rand8 k` is the k-th random byte drawn, the `rand8()` of 42_alu.md R132: the source gives
no generator, so it has no body and nothing can be proved of its value. -/
opaque Config.rand8 : Nat → Byte

/-- `BORROW_FLAG_MODE` (R6; 90_conflicts.md C2): what VF says after 8xy5 and 8xy7. -/
inductive BorrowFlagMode where
  | noBorrow     -- `NO_BORROW`, the default: VF = 1 when no borrow occurs
  | referenceLt  -- `REFERENCE_LT`: VF = 1 when a borrow occurs
  deriving DecidableEq, Repr

/-- `SHIFT_SOURCE` (R6): which register 8xy6 and 8xyE shift. -/
inductive ShiftSource where
  | vx  -- `VX`, the default
  | vy  -- `VY`
  deriving DecidableEq, Repr

/-- The rows of R6 marked "parameter". They are fixed per instance and are not registers (10_state.md R36); State carries
them because a step's only argument is the state (log 1). -/
structure Params where
  displayW : Nat := 64
  displayH : Nat := 32
  fontBase : Word := 0x000
  resetPc : Word := 0x000
  borrowFlagMode : BorrowFlagMode := .noBorrow
  shiftSource : ShiftSource := .vx
  loadstoreIncrementsI : Bool := false
  deriving DecidableEq, Repr

/-- The parameters at the defaults of R6. -/
def Params.default : Params := {}

/-- `DISPLAY_W` and `DISPLAY_H` are "each at least 1" (92_eei_decisions.md D15). -/
abbrev Params.wf (p : Params) : Prop := 1 ≤ p.displayW ∧ 1 ≤ p.displayH

end Sys2Proof
end

