-- ==== Sys2Proof/Machine/State.lean ====
section
/-! DEFINITION. The architectural state (10_state.md), the reset state (70_reset_and_hazards.md R240) and the reasons a step
can stop. -/

namespace Sys2Proof.Machine

/-- The fault causes (60_exceptions.md R211). A fault of the spec is a NEXT state with the fault latch set (R213), so these
are data, not outcomes. -/
inductive FaultCause where
  | none              -- code 0
  | fetchOutOfRange   -- code 1, `FETCH_OUT_OF_RANGE`
  | stackOverflow     -- code 2, `STACK_OVERFLOW`
  | stackUnderflow    -- code 3, `STACK_UNDERFLOW`
  | memoryOutOfRange  -- code 4, `MEMORY_OUT_OF_RANGE`
  | keyOutOfRange     -- code 5, `KEY_OUT_OF_RANGE`
  deriving DecidableEq, Repr

/-- `FAULT_RECORD = (cause, pc, opcode, addr)` (10_state.md R34). `addr` is an address computed without reduction or a
register value, so a number (log 6). -/
structure FaultRecord where
  cause : FaultCause
  pc : Word
  opcode : Word
  addr : Nat
  deriving DecidableEq, Repr

/-- The record at reset: (0, 0, 0, 0) (R34, R240). -/
def FaultRecord.empty : FaultRecord := { cause := .none, pc := 0, opcode := 0, addr := 0 }

/-- Memory as the list of the cells that do not hold 0, addresses strictly rising; an unlisted cell reads as 0, the reset
content of every cell (10_state.md R31). -/
abbrev Memory := List Host.Cell

/-- The display as its rows, top row first; each row is its pixels, leftmost first (10_state.md R32). `true` is lit. -/
abbrev Grid := List (List Bool)

/-- The state of the block. -/
structure State where
  /-- `V0`..`VF` (R20). -/
  v : Vector Byte 16
  /-- `I` (R26). -/
  i : Word
  /-- `PC` (R24). -/
  pc : Word
  /-- `STACK[0]`..`STACK[15]` (R27). -/
  stack : Vector Word 16
  /-- `SP`, 0..16 (R28). -/
  sp : Fin 17
  /-- `DT` (R29). -/
  dt : Byte
  /-- `ST` (R30). -/
  st : Byte
  /-- `MEM` (R31). -/
  mem : Memory
  /-- `PIX` (R32). -/
  pix : Grid
  /-- `KEY[0]`..`KEY[15]`, `true` = pressed (R33). -/
  key : Vector Bool 16
  /-- `FAULTED` (R34). -/
  faulted : Bool
  /-- `FAULT_RECORD` (R34). -/
  faultRecord : FaultRecord
  /-- The instance's parameters (00_scope.md R6): constant, nothing writes them (log 1). -/
  params : Params
  /-- The model's own: how many random bytes have been drawn (log 2). -/
  draws : Nat
  deriving DecidableEq, Repr

/-- The reasons for `Host.Outcome.fault`. THERE IS NONE: every fault the spec describes is an entry into the fault latch,
which is a next state (60_exceptions.md R213, log 3), so no meaning and no step ends this way. -/
inductive Fault
  deriving DecidableEq, Repr

/-- The reasons for `Host.Outcome.refused`. -/
inductive Refusal where
  /-- An instruction without a meaning, raised by its arm of `exec`; safe. No arm is left that raises it. -/
  | notModelled (mnemonic : String)
  /-- `REFUSED_FAULTED`: `step` was invoked while `FAULTED` is set; raised by `step` alone, the block runs no instruction
  and its state does not change (40_step.md R96, 60_exceptions.md R214); safe. -/
  | refusedFaulted
  deriving DecidableEq, Repr

/-- A display of `w` columns and `h` rows with every pixel unlit. -/
def Grid.unlit (w h : Nat) : Grid := List.replicate h (List.replicate w false)

/-- The state after `reset()` (R240) of an instance with parameters `p`, the free values from `draws` on still to come. -/
def State.resetOf (p : Params) (draws : Nat) : State where
  v := Vector.replicate 16 0
  i := 0
  pc := p.resetPc
  stack := Vector.replicate 16 0
  sp := 0
  dt := 0
  st := 0
  mem := []
  pix := Grid.unlit p.displayW p.displayH
  key := Vector.replicate 16 false
  faulted := false
  faultRecord := FaultRecord.empty
  params := p
  draws := draws

/-- The machine right after reset, parameters at the defaults of R6. -/
def State.reset : State := State.resetOf Params.default 0

end Sys2Proof.Machine
end

