-- ==== Sys2Proof/Machine/Flags.lean ====
section
/-! DEFINITION. The flag computations: what the instructions of 10_state.md R37 write to VF, always 0 or 1. -/

namespace Sys2Proof.Machine

/-- `c ? 1 : 0`. -/
def flagOf (c : Bool) : Byte := if c then 1 else 0

/-- The carry of 8xy4: 1 when the unbounded sum exceeds 255 (42_alu.md R127). -/
def carryFlag (a b : Byte) : Byte := flagOf (255 < a.toNat + b.toNat)

/-- The flag of `a - b` per `BORROW_FLAG_MODE` (R128, R130): a borrow occurs exactly when a < b. -/
def borrowFlag (mode : BorrowFlagMode) (a b : Byte) : Byte :=
  match mode with
  | .noBorrow => flagOf (b.toNat ≤ a.toNat)
  | .referenceLt => flagOf (a.toNat < b.toNat)

/-- The bit that a shift right by one drops: bit 0 (R129). -/
def shiftedOutRight (v : Byte) : Byte := v &&& 1

/-- The bit that a shift left by one drops: bit 7 (R131). -/
def shiftedOutLeft (v : Byte) : Byte := (v >>> 7) &&& 1

/-- The collision flag of Dxyn (44_display.md R175). -/
def collisionFlag (c : Bool) : Byte := flagOf c

end Sys2Proof.Machine
end

