-- ==== Sys2Proof/Syntax.lean ====
section
/-! DEFINITION. The instruction set: one constructor per row of spec/opcode_table.json (30_encoding.md R73). -/

namespace Sys2Proof

/-- An instruction. `x` and `y` are register indices, `kk` the byte immediate, `nnn` the address immediate, `n` the row
count of Dxyn (R70, R71). -/
inductive Instr where
  | cls                           -- 00E0
  | ret                           -- 00EE
  | jp (nnn : Addr)               -- 1nnn
  | call (nnn : Addr)             -- 2nnn
  | seImm (x : Reg) (kk : Byte)   -- 3xkk
  | sneImm (x : Reg) (kk : Byte)  -- 4xkk
  | seReg (x y : Reg)             -- 5xy0
  | ldImm (x : Reg) (kk : Byte)   -- 6xkk
  | addImm (x : Reg) (kk : Byte)  -- 7xkk
  | ldReg (x y : Reg)             -- 8xy0
  | orReg (x y : Reg)             -- 8xy1
  | andReg (x y : Reg)            -- 8xy2
  | xorReg (x y : Reg)            -- 8xy3
  | addReg (x y : Reg)            -- 8xy4
  | subReg (x y : Reg)            -- 8xy5
  | shr (x y : Reg)               -- 8xy6
  | subn (x y : Reg)              -- 8xy7
  | shl (x y : Reg)               -- 8xyE
  | sneReg (x y : Reg)            -- 9xy0
  | ldI (nnn : Addr)              -- Annn
  | jpV0 (nnn : Addr)             -- Bnnn
  | rnd (x : Reg) (kk : Byte)     -- Cxkk
  | drw (x y : Reg) (n : Nat)     -- Dxyn
  | skp (x : Reg)                 -- Ex9E
  | sknp (x : Reg)                -- ExA1
  | ldFromDt (x : Reg)            -- Fx07
  | ldKey (x : Reg)               -- Fx0A
  | ldDt (x : Reg)                -- Fx15
  | ldSt (x : Reg)                -- Fx18
  | addI (x : Reg)                -- Fx1E
  | ldFont (x : Reg)              -- Fx29
  | ldBcd (x : Reg)               -- Fx33
  | storeRegs (x : Reg)           -- Fx55
  | loadRegs (x : Reg)            -- Fx65
  deriving DecidableEq, Repr

/-- What the decoder reads from the front of a list of bytes: an instruction, a word that is no row of the opcode map
(R75), or fewer than the two bytes that every instruction has (R77). -/
inductive Decoded where
  | instr (i : Instr) (rest : List Byte)
  | unrecognized (op : Word) (rest : List Byte)
  | truncated
  deriving DecidableEq, Repr

end Sys2Proof
end

