-- ==== Sys2Proof/Decode.lean ====
section
/-! DEFINITION. The dispatch mux (30_encoding.md R74), the encoder, and the opcode map R73 as data. -/

namespace Sys2Proof

/-! ### Fields of an opcode word (R70) -/

/-- The byte of a word at bits 15:8, which lies at the lower address (20_memory.md R53). -/
def highByte (op : Word) : Byte := op.extractLsb' 8 8

/-- The byte of a word at bits 7:0. -/
def lowByte (op : Word) : Byte := op.extractLsb' 0 8

/-- The word whose bits 15:8 are `hi` and bits 7:0 are `lo`: `(hi << 8) | lo` (00_scope.md R8). -/
def wordOfBytes (hi lo : Byte) : Word := hi ++ lo

/-- `n1 = op[15:12]`, the major opcode. -/
def fieldN1 (op : Word) : Fin 16 := (op.extractLsb' 12 4).toFin

/-- `x = op[11:8]`. -/
def fieldX (op : Word) : Reg := (op.extractLsb' 8 4).toFin

/-- `y = op[7:4]`. -/
def fieldY (op : Word) : Reg := (op.extractLsb' 4 4).toFin

/-- `n = op[3:0]`. -/
def fieldN (op : Word) : Fin 16 := (op.extractLsb' 0 4).toFin

/-- `kk = op[7:0]`. -/
def fieldKk (op : Word) : Byte := op.extractLsb' 0 8

/-- `nnn = op[11:0]`. -/
def fieldNnn (op : Word) : Addr := op.extractLsb' 0 12

/-! ### The dispatch mux (R74) -/

/-- Group 0: the whole word must be 0x00E0 or 0x00EE. -/
def decodeGroup0 (op : Word) : Option Instr :=
  if op = 0x00E0 then some .cls else if op = 0x00EE then some .ret else none

/-- Group 8: the n4 nibble selects the ALU operation (R72). -/
def decodeGroup8 (op : Word) : Option Instr :=
  let x := fieldX op
  let y := fieldY op
  match (fieldN op).val with
  | 0x0 => some (.ldReg x y)
  | 0x1 => some (.orReg x y)
  | 0x2 => some (.andReg x y)
  | 0x3 => some (.xorReg x y)
  | 0x4 => some (.addReg x y)
  | 0x5 => some (.subReg x y)
  | 0x6 => some (.shr x y)
  | 0x7 => some (.subn x y)
  | 0xE => some (.shl x y)
  | _ => none

/-- Group E: the low byte selects the key instruction. -/
def decodeGroupE (op : Word) : Option Instr :=
  let kk := fieldKk op
  if kk = 0x9E then some (.skp (fieldX op))
  else if kk = 0xA1 then some (.sknp (fieldX op))
  else none

/-- Group F: the low byte selects the instruction. -/
def decodeGroupF (op : Word) : Option Instr :=
  let kk := fieldKk op
  let x := fieldX op
  if kk = 0x07 then some (.ldFromDt x)
  else if kk = 0x0A then some (.ldKey x)
  else if kk = 0x15 then some (.ldDt x)
  else if kk = 0x18 then some (.ldSt x)
  else if kk = 0x1E then some (.addI x)
  else if kk = 0x29 then some (.ldFont x)
  else if kk = 0x33 then some (.ldBcd x)
  else if kk = 0x55 then some (.storeRegs x)
  else if kk = 0x65 then some (.loadRegs x)
  else none

/-- The instruction a word selects; `none` is the unrecognized outcome (R74, R75, 40_step.md R92). Total on all words. -/
def decodeWord (op : Word) : Option Instr :=
  let x := fieldX op
  let y := fieldY op
  let kk := fieldKk op
  let nnn := fieldNnn op
  match (fieldN1 op).val with
  | 0x0 => decodeGroup0 op
  | 0x1 => some (.jp nnn)
  | 0x2 => some (.call nnn)
  | 0x3 => some (.seImm x kk)
  | 0x4 => some (.sneImm x kk)
  | 0x5 => if fieldN op = 0 then some (.seReg x y) else none
  | 0x6 => some (.ldImm x kk)
  | 0x7 => some (.addImm x kk)
  | 0x8 => decodeGroup8 op
  | 0x9 => if fieldN op = 0 then some (.sneReg x y) else none
  | 0xA => some (.ldI nnn)
  | 0xB => some (.jpV0 nnn)
  | 0xC => some (.rnd x kk)
  | 0xD => some (.drw x y (fieldN op).val)
  | 0xE => decodeGroupE op
  | 0xF => decodeGroupF op
  | _ => none

/-- The decoder over bytes, high byte first (20_memory.md R52); it always consumes exactly two bytes (R77). -/
def decode (bytes : List Byte) : Decoded :=
  match bytes with
  | hi :: lo :: rest =>
    match decodeWord (wordOfBytes hi lo) with
    | some i => .instr i rest
    | none => .unrecognized (wordOfBytes hi lo) rest
  | _ => .truncated

/-! ### The encoder, from the same patterns (R73) -/

/-- The nibble that holds a register index. -/
def nibble (r : Fin 16) : BitVec 4 := BitVec.ofFin r

/-- The word of an instruction: its pattern of R73 with the fields filled in. -/
def encode (i : Instr) : Word :=
  match i with
  | .cls => 0x00E0
  | .ret => 0x00EE
  | .jp nnn => 0x1#4 ++ nnn
  | .call nnn => 0x2#4 ++ nnn
  | .seImm x kk => 0x3#4 ++ nibble x ++ kk
  | .sneImm x kk => 0x4#4 ++ nibble x ++ kk
  | .seReg x y => 0x5#4 ++ nibble x ++ nibble y ++ 0x0#4
  | .ldImm x kk => 0x6#4 ++ nibble x ++ kk
  | .addImm x kk => 0x7#4 ++ nibble x ++ kk
  | .ldReg x y => 0x8#4 ++ nibble x ++ nibble y ++ 0x0#4
  | .orReg x y => 0x8#4 ++ nibble x ++ nibble y ++ 0x1#4
  | .andReg x y => 0x8#4 ++ nibble x ++ nibble y ++ 0x2#4
  | .xorReg x y => 0x8#4 ++ nibble x ++ nibble y ++ 0x3#4
  | .addReg x y => 0x8#4 ++ nibble x ++ nibble y ++ 0x4#4
  | .subReg x y => 0x8#4 ++ nibble x ++ nibble y ++ 0x5#4
  | .shr x y => 0x8#4 ++ nibble x ++ nibble y ++ 0x6#4
  | .subn x y => 0x8#4 ++ nibble x ++ nibble y ++ 0x7#4
  | .shl x y => 0x8#4 ++ nibble x ++ nibble y ++ 0xE#4
  | .sneReg x y => 0x9#4 ++ nibble x ++ nibble y ++ 0x0#4
  | .ldI nnn => 0xA#4 ++ nnn
  | .jpV0 nnn => 0xB#4 ++ nnn
  | .rnd x kk => 0xC#4 ++ nibble x ++ kk
  | .drw x y n => 0xD#4 ++ nibble x ++ nibble y ++ BitVec.ofNat 4 n
  | .skp x => 0xE#4 ++ nibble x ++ 0x9E#8
  | .sknp x => 0xE#4 ++ nibble x ++ 0xA1#8
  | .ldFromDt x => 0xF#4 ++ nibble x ++ 0x07#8
  | .ldKey x => 0xF#4 ++ nibble x ++ 0x0A#8
  | .ldDt x => 0xF#4 ++ nibble x ++ 0x15#8
  | .ldSt x => 0xF#4 ++ nibble x ++ 0x18#8
  | .addI x => 0xF#4 ++ nibble x ++ 0x1E#8
  | .ldFont x => 0xF#4 ++ nibble x ++ 0x29#8
  | .ldBcd x => 0xF#4 ++ nibble x ++ 0x33#8
  | .storeRegs x => 0xF#4 ++ nibble x ++ 0x55#8
  | .loadRegs x => 0xF#4 ++ nibble x ++ 0x65#8

/-- The two bytes of an instruction in address order (20_memory.md R53). -/
def encodeBytes (i : Instr) : List Byte := [highByte (encode i), lowByte (encode i)]

/-! ### The opcode map R73 as data -/

/-- The mask and match columns of the instruction's row of R73. -/
def rowOf (i : Instr) : Word × Word :=
  match i with
  | .cls => (0xFFFF, 0x00E0)
  | .ret => (0xFFFF, 0x00EE)
  | .jp _ => (0xF000, 0x1000)
  | .call _ => (0xF000, 0x2000)
  | .seImm _ _ => (0xF000, 0x3000)
  | .sneImm _ _ => (0xF000, 0x4000)
  | .seReg _ _ => (0xF00F, 0x5000)
  | .ldImm _ _ => (0xF000, 0x6000)
  | .addImm _ _ => (0xF000, 0x7000)
  | .ldReg _ _ => (0xF00F, 0x8000)
  | .orReg _ _ => (0xF00F, 0x8001)
  | .andReg _ _ => (0xF00F, 0x8002)
  | .xorReg _ _ => (0xF00F, 0x8003)
  | .addReg _ _ => (0xF00F, 0x8004)
  | .subReg _ _ => (0xF00F, 0x8005)
  | .shr _ _ => (0xF00F, 0x8006)
  | .subn _ _ => (0xF00F, 0x8007)
  | .shl _ _ => (0xF00F, 0x800E)
  | .sneReg _ _ => (0xF00F, 0x9000)
  | .ldI _ => (0xF000, 0xA000)
  | .jpV0 _ => (0xF000, 0xB000)
  | .rnd _ _ => (0xF000, 0xC000)
  | .drw _ _ _ => (0xF000, 0xD000)
  | .skp _ => (0xF0FF, 0xE09E)
  | .sknp _ => (0xF0FF, 0xE0A1)
  | .ldFromDt _ => (0xF0FF, 0xF007)
  | .ldKey _ => (0xF0FF, 0xF00A)
  | .ldDt _ => (0xF0FF, 0xF015)
  | .ldSt _ => (0xF0FF, 0xF018)
  | .addI _ => (0xF0FF, 0xF01E)
  | .ldFont _ => (0xF0FF, 0xF029)
  | .ldBcd _ => (0xF0FF, 0xF033)
  | .storeRegs _ => (0xF0FF, 0xF055)
  | .loadRegs _ => (0xF0FF, 0xF065)

/-- The 34 rows of R73, in the table's order: (mask, match). -/
def opcodeMap : List (Word × Word) :=
  [(0xFFFF, 0x00E0), (0xFFFF, 0x00EE), (0xF000, 0x1000), (0xF000, 0x2000), (0xF000, 0x3000), (0xF000, 0x4000),
   (0xF00F, 0x5000), (0xF000, 0x6000), (0xF000, 0x7000), (0xF00F, 0x8000), (0xF00F, 0x8001), (0xF00F, 0x8002)] ++
  [(0xF00F, 0x8003), (0xF00F, 0x8004), (0xF00F, 0x8005), (0xF00F, 0x8006), (0xF00F, 0x8007), (0xF00F, 0x800E),
   (0xF00F, 0x9000), (0xF000, 0xA000), (0xF000, 0xB000), (0xF000, 0xC000), (0xF000, 0xD000), (0xF0FF, 0xE09E)] ++
  [(0xF0FF, 0xE0A1), (0xF0FF, 0xF007), (0xF0FF, 0xF00A), (0xF0FF, 0xF015), (0xF0FF, 0xF018), (0xF0FF, 0xF01E),
   (0xF0FF, 0xF029), (0xF0FF, 0xF033), (0xF0FF, 0xF055), (0xF0FF, 0xF065)]

/-- A word is in a row when `(w & mask) == match` (R73). -/
def matchesRow (op : Word) (row : Word × Word) : Bool := op &&& row.1 == row.2

/-! ### The opcode table's numbering -/

/-- The word whose bits, as spec/opcode_table.json numbers them, are `w` below bit `nbits` and 0 from there on. -/
def tableWord (nbits w : Nat) : Word := BitVec.ofNat 16 (w % 2 ^ nbits)

/-- The instruction the decoder reads from an instruction whose bits are `w`, numbered as the table numbers them. -/
def decodeTableWord (nbits w : Nat) : Option Instr :=
  match decode [highByte (tableWord nbits w), lowByte (tableWord nbits w)] with
  | .instr i _ => some i
  | .unrecognized _ _ => none
  | .truncated => none

end Sys2Proof
end

