-- ==== Sys2Proof/Machine/Ops.lean ====
section
/-! DEFINITION. The named operations: memory, registers, stack, display, keypad, program counter, entering and leaving a
fault, the fetch and the sequencer. -/

namespace Sys2Proof.Machine

/-- The outcome of one instruction or one step. -/
abbrev Outcome := Host.Outcome State Fault Refusal

/-! ### Memory (20_memory.md) -/

/-- The byte at an address; an unlisted address reads as 0 (10_state.md R31). -/
def Memory.read (m : Memory) (a : Nat) : Byte :=
  match m with
  | [] => 0#8
  | (b, v) :: rest => if b = a then v else Memory.read rest a

/-- `MEM[a] <- v`, keeping the list in its one form: strictly rising, no cell that holds 0. -/
def Memory.write (m : Memory) (a : Nat) (v : Byte) : Memory :=
  match m with
  | [] => if v = 0#8 then [] else [(a, v)]
  | (b, u) :: rest =>
    if a < b then (if v = 0#8 then (b, u) :: rest else (a, v) :: (b, u) :: rest)
    else if a = b then (if v = 0#8 then rest else (a, v) :: rest)
    else (b, u) :: Memory.write rest a v

/-- The one form of a memory: addresses strictly rising and inside 0x000..0xFFF, no cell listed that holds 0. -/
abbrev Memory.wf (m : Memory) : Prop :=
  m.Pairwise (fun c d => c.1 < d.1) ∧ ∀ c ∈ m, c.1 < Config.memSize ∧ c.2 ≠ 0#8

/-- `MEM[a]`. -/
def State.readByte (s : State) (a : Nat) : Byte := s.mem.read a

/-- `MEM[a] <- v` for a cell of the memory; an address above 0xFFF names no cell (R50) and nothing is written: every access
of an instruction is checked before (R51, R94; log 17). -/
def State.storeByte (s : State) (a : Nat) (v : Byte) : State :=
  if a < Config.memSize then { s with mem := s.mem.write a v } else s

/-- The addresses `base + j` for j in 0..k-1, computed without reduction (43_index_memory.md R156). -/
def addresses (base k : Nat) : List Nat := (List.range k).map (base + ·)

/-- The lowest of these addresses that is above 0xFFF, if any is (R156). -/
def firstOutOfRange (base k : Nat) : Option Nat := (addresses base k).find? (fun a => 0xFFF < a)

/-! ### Registers -/

/-- `V[r]`. -/
def State.reg (s : State) (r : Reg) : Byte := s.v[r]

/-- `V[r] <- b`. -/
def State.setReg (s : State) (r : Reg) (b : Byte) : State := { s with v := s.v.set r b }

/-- The result to `Vx` first and the flag to `VF` last, so that for x = 15 the flag is what stays (10_state.md R21). -/
def State.setRegAndFlag (s : State) (x : Reg) (result flag : Byte) : State := (s.setReg x result).setReg VF flag

/-- `I <- w`. -/
def State.setI (s : State) (w : Word) : State := { s with i := w }

/-- `DT <- b`. -/
def State.setDt (s : State) (b : Byte) : State := { s with dt := b }

/-- `ST <- b`. -/
def State.setSt (s : State) (b : Byte) : State := { s with st := b }

/-- One more random byte has been drawn (log 2). -/
def State.countDraw (s : State) : State := { s with draws := s.draws + 1 }

/-- `V0`..`VF` in increasing order. -/
def allRegs : List Reg := [0, 1, 2, 3, 4, 5, 6, 7, 8, 9, 10, 11, 12, 13, 14, 15]

/-- `V0`..`Vx` in increasing order, the block that Fx55 and Fx65 move (30_encoding.md R71). -/
def regsUpTo (x : Reg) : List Reg := allRegs.filter (· ≤ x)

/-- `for j in 0..x: MEM[base + j] <- V[j]`, in increasing order (R154). -/
def State.storeBlock (s : State) (base : Nat) (x : Reg) : State :=
  (regsUpTo x).foldl (fun t j => t.storeByte (base + j.val) (t.reg j)) s

/-- `for j in 0..x: V[j] <- MEM[base + j]`, in increasing order (R155). -/
def State.loadBlock (s : State) (base : Nat) (x : Reg) : State :=
  (regsUpTo x).foldl (fun t j => t.setReg j (t.readByte (base + j.val))) s

/-! ### Program counter (40_step.md R93, R98) -/

/-- `PC <- u16(PC + 2)`. -/
def State.advance (s : State) : State := { s with pc := s.pc + 2 }

/-- `PC <- target`. -/
def State.jump (s : State) (target : Word) : State := { s with pc := target }

/-- A skip: `PC <- u16(PC + 4)` when the condition holds, else `PC <- u16(PC + 2)` (41_flow.md R108). -/
def State.skipIf (s : State) (c : Bool) : State := { s with pc := if c then s.pc + 4 else s.pc + 2 }

/-! ### Return stack (10_state.md R27, R28) -/

/-- `STACK[SP]`, the entry that a pop has just uncovered. -/
def State.stackAt (s : State) (j : Nat) : Word := s.stack[j]?.getD 0

/-- `STACK[SP] <- w; SP <- SP + 1`, for SP < 16. -/
def State.push (s : State) (w : Word) : State :=
  { s with stack := s.stack.setIfInBounds s.sp.val w, sp := Fin.ofNat 17 (s.sp.val + 1) }

/-- `SP <- SP - 1; PC <- STACK[SP]`, for SP > 0; the entry keeps its value (41_flow.md R100). -/
def State.popToPc (s : State) : State :=
  { s with sp := Fin.ofNat 17 (s.sp.val - 1), pc := s.stackAt (s.sp.val - 1) }

/-! ### Display primitives (44_display.md R170) -/

/-- `get_pixel(px, py)`. -/
def Grid.get (g : Grid) (px py : Nat) : Bool := (g[py]?.getD [])[px]?.getD false

/-- `set_pixel(px, py, value)`. -/
def Grid.put (g : Grid) (px py : Nat) (value : Bool) : Grid := g.set py ((g[py]?.getD []).set px value)

/-- A grid has `h` rows of `w` pixels. -/
abbrev Grid.wf (g : Grid) (w h : Nat) : Prop := g.length = h ∧ ∀ row ∈ g, row.length = w

/-- `PIX[px][py]`. -/
def State.pixel (s : State) (px py : Nat) : Bool := s.pix.get px py

/-- The display replaced by a grid. -/
def State.setPix (s : State) (g : Grid) : State := { s with pix := g }

/-- `clear()`: every pixel unlit. -/
def State.clearDisplay (s : State) : State := s.setPix (Grid.unlit s.params.displayW s.params.displayH)

/-! ### Keypad latch (45_keypad_timers.md R190) -/

/-- `is_pressed(k)`; an instruction checks the index first (log 18). -/
def State.isPressed (s : State) (k : Nat) : Bool := s.key[k]?.getD false

/-- `KEY[k] <- b`. -/
def State.setKey (s : State) (k : Nat) (b : Bool) : State := { s with key := s.key.setIfInBounds k b }

/-- The lowest k in 0..15 with `KEY[k]`, if any key is pressed (R193). -/
def State.lowestKey (s : State) : Option Reg := allRegs.find? (fun k => s.isPressed k.val)

/-! ### Entering and leaving a fault (60_exceptions.md R213, R214) -/

/-- The code of a cause (R211). -/
def FaultCause.code (c : FaultCause) : Nat :=
  match c with
  | .none => 0
  | .fetchOutOfRange => 1
  | .stackOverflow => 2
  | .stackUnderflow => 3
  | .memoryOutOfRange => 4
  | .keyOutOfRange => 5

/-- The state after fault entry: `FAULTED <- 1`, `FAULT_RECORD <- (cause, PC, op, addr)`, nothing else (R213). -/
def State.enterFault (s : State) (cause : FaultCause) (op : Word) (addr : Nat) : State :=
  { s with faulted := true, faultRecord := { cause := cause, pc := s.pc, opcode := op, addr := addr } }

/-- `raise Fault(cause, addr)` in a step whose word is `op`: the step ends in the faulted state (R213). -/
def raiseFault (cause : FaultCause) (op : Word) (addr : Nat) (s : State) : Outcome :=
  .next (s.enterFault cause op addr)

/-- The state after the host's `skip_faulted` in a faulted block: `PC <- u16(PC + 2)`, `FAULTED <- 0`, the record kept
(R214; log 5). -/
def State.leaveFault (s : State) : State := { s with pc := s.pc + 2, faulted := false }

/-- Runs `body` when every address `I + j`, j in 0..k-1, is in memory; else raises `MEMORY_OUT_OF_RANGE` with the lowest
that is not, before any write (43_index_memory.md R156, 40_step.md R94). -/
def checkBlock (op : Word) (k : Nat) (s : State) (body : State) : Outcome :=
  match firstOutOfRange s.i.toNat k with
  | some a => raiseFault .memoryOutOfRange op a s
  | none => .next body

/-- Runs `body` when `k` is a key's index; else raises `KEY_OUT_OF_RANGE` (45_keypad_timers.md R191, R192). -/
def checkKey (op : Word) (k : Nat) (s : State) (body : State) : Outcome :=
  if 15 < k then raiseFault .keyOutOfRange op k s else .next body

/-! ### Fetch and sequencer (20_memory.md R52, 40_step.md R90) -/

/-- `Fetch(PC)`: the big-endian word at `PC`; `none` when `PC > 0xFFE`. -/
def State.fetch (s : State) : Option Word :=
  if 0xFFE < s.pc.toNat then none
  else some (wordOfBytes (s.readByte s.pc.toNat) (s.readByte (s.pc.toNat + 1)))

/-- An unrecognized word: a no-op that advances `PC` by 2 (40_step.md R95). -/
def execUnrecognized (s : State) : Outcome := .next s.advance

/-- `Step()` of R90 over an executor of instructions: refuse while faulted, fetch, decode, execute. -/
def runStep (execute : Instr → State → Outcome) (s : State) : Outcome :=
  if s.faulted then .refused .refusedFaulted
  else
    match s.fetch with
    | none => raiseFault .fetchOutOfRange 0 s.pc.toNat s
    | some op =>
      match decodeWord op with
      | none => execUnrecognized s
      | some i => execute i s

/-- The state made ready to run the word `op` in its very next step: the latch clear, `PC` where a fetch can succeed (moved
to 0x000 only if it is above 0xFFE), and the word's bytes in memory at `PC` (log 9). -/
def State.placeWord (s : State) (op : Word) : State :=
  let p : Word := if 0xFFE < s.pc.toNat then 0 else s.pc
  let t : State := { s with pc := p, faulted := false }
  (t.storeByte p.toNat (highByte op)).storeByte (p.toNat + 1) (lowByte op)

end Sys2Proof.Machine
end

