-- ==== Sys2Proof/Machine/Operands.lean ====
section
/-! DEFINITION. The operand forms (30_encoding.md R71) and the values computed from them. -/

namespace Sys2Proof.Machine

/-- `zext_16(nnn)` (R71). -/
def zextAddr (nnn : Addr) : Word := nnn.setWidth 16

/-- `zext_16(v)` of a register's value (43_index_memory.md R151). -/
def zextByte (b : Byte) : Word := b.setWidth 16

/-- The target of Bnnn, `zext_16(nnn) + zext_16(V[0])`: at most 0x10FE, not reduced (41_flow.md R103). -/
def indexedTarget (nnn : Addr) (s : State) : Word := zextAddr nnn + zextByte (s.reg 0)

/-- The register that 8xy6 and 8xyE shift: `Vx`, or `Vy` when `SHIFT_SOURCE = VY` (42_alu.md R129, R131). -/
def shiftOperand (s : State) (x y : Reg) : Byte :=
  match s.params.shiftSource with
  | .vx => s.reg x
  | .vy => s.reg y

/-- The address of the glyph of a digit, `u16(FONT_BASE + V[x] * 5)`: the full byte is used (43_index_memory.md R152). -/
def glyphAddress (s : State) (x : Reg) : Word := u16 (s.params.fontBase.toNat + (s.reg x).toNat * Config.glyphBytes)

/-- `v / 100`, the hundreds digit (R153). -/
def bcdHundreds (v : Byte) : Byte := u8 (v.toNat / 100)

/-- `(v / 10) mod 10`, the tens digit (R153). -/
def bcdTens (v : Byte) : Byte := u8 (v.toNat / 10 % 10)

/-- `v mod 10`, the units digit (R153). -/
def bcdUnits (v : Byte) : Byte := u8 (v.toNat % 10)

/-- `if LOADSTORE_INCREMENTS_I: I <- u16(I + x + 1)` (R154, R155). -/
def State.afterBlock (s : State) (x : Reg) : State :=
  if s.params.loadstoreIncrementsI then s.setI (u16 (s.i.toNat + x.val + 1)) else s

/-- The sprite's rows, `MEM[I]`..`MEM[I + n - 1]` (44_display.md R175). -/
def spriteRows (s : State) (n : Nat) : List Byte := (addresses s.i.toNat n).map s.readByte

end Sys2Proof.Machine
end

