-- ==== Sys2Proof/Machine/Alu.lean ====
section
/-! DEFINITION. Register loads and the ALU (42_alu.md). Operands are read from the state at the start of the step (R120). -/

namespace Sys2Proof.Machine

/-- 6xkk (R121). -/
def execLdImm (x : Reg) (kk : Byte) (s : State) : Outcome := .next (s.setReg x kk).advance

/-- 7xkk (R122): wraps, no flag. -/
def execAddImm (x : Reg) (kk : Byte) (s : State) : Outcome := .next (s.setReg x (s.reg x + kk)).advance

/-- 8xy0 (R123). -/
def execLdReg (x y : Reg) (s : State) : Outcome := .next (s.setReg x (s.reg y)).advance

/-- 8xy1 (R124). -/
def execOrReg (x y : Reg) (s : State) : Outcome := .next (s.setReg x (s.reg x ||| s.reg y)).advance

/-- 8xy2 (R125). -/
def execAndReg (x y : Reg) (s : State) : Outcome := .next (s.setReg x (s.reg x &&& s.reg y)).advance

/-- 8xy3 (R126). -/
def execXorReg (x y : Reg) (s : State) : Outcome := .next (s.setReg x (s.reg x ^^^ s.reg y)).advance

/-- 8xy4 (R127). -/
def execAddReg (x y : Reg) (s : State) : Outcome :=
  let a := s.reg x
  let b := s.reg y
  .next (s.setRegAndFlag x (a + b) (carryFlag a b)).advance

/-- 8xy5 (R128): Vx - Vy. -/
def execSubReg (x y : Reg) (s : State) : Outcome :=
  let a := s.reg x
  let b := s.reg y
  .next (s.setRegAndFlag x (a - b) (borrowFlag s.params.borrowFlagMode a b)).advance

/-- 8xy7 (R130): Vy - Vx. -/
def execSubn (x y : Reg) (s : State) : Outcome :=
  let a := s.reg x
  let b := s.reg y
  .next (s.setRegAndFlag x (b - a) (borrowFlag s.params.borrowFlagMode b a)).advance

/-- 8xy6 (R129). -/
def execShr (x y : Reg) (s : State) : Outcome :=
  let v := shiftOperand s x y
  .next (s.setRegAndFlag x (v >>> 1) (shiftedOutRight v)).advance

/-- 8xyE (R131). -/
def execShl (x y : Reg) (s : State) : Outcome :=
  let v := shiftOperand s x y
  .next (s.setRegAndFlag x (v <<< 1) (shiftedOutLeft v)).advance

/-- Cxkk (R132): a free random byte, masked; the next draw is another free value (log 2). -/
def execRnd (x : Reg) (kk : Byte) (s : State) : Outcome :=
  let r := Config.rand8 s.draws
  .next (s.setReg x (r &&& kk)).countDraw.advance

end Sys2Proof.Machine
end

