-- ==== Sys2Proof/Machine/Display.lean ====
section
/-! DEFINITION. The collision engine and the display instructions (44_display.md). -/

namespace Sys2Proof.Machine

/-- One sprite bit of 1 at column `c`, row `r` of the sprite: the pixel at `((px0 + c) mod W, (py0 + r) mod H)` toggles, and
a lit one makes a collision (R171, R172). -/
def drawBit (p : Params) (px0 py0 r c : Nat) (d : Grid × Bool) : Grid × Bool :=
  let px := (px0 + c) % p.displayW
  let py := (py0 + r) % p.displayH
  let old := d.1.get px py
  (d.1.put px py (!old), d.2 || old)

/-- One row: columns 0..7 in increasing order, bit 7 of the byte is column 0; a bit of 0 changes nothing (R171). -/
def drawRow (p : Params) (px0 py0 r : Nat) (row : Byte) (d : Grid × Bool) : Grid × Bool :=
  (List.range Config.spriteWidth).foldl
    (fun d c => if row.getLsbD (7 - c) then drawBit p px0 py0 r c d else d) d

/-- The rows from row `r` on, in increasing order (R171). -/
def drawRows (p : Params) (px0 py0 r : Nat) (rows : List Byte) (d : Grid × Bool) : Grid × Bool :=
  match rows with
  | [] => d
  | row :: rest => drawRows p px0 py0 (r + 1) rest (drawRow p px0 py0 r row d)

/-- `DrawSprite(px0, py0, rows)`: the new grid and whether any lit pixel was turned off (R171). -/
def drawSprite (p : Params) (px0 py0 : Byte) (rows : List Byte) (g : Grid) : Grid × Bool :=
  drawRows p px0.toNat py0.toNat 0 rows (g, false)

/-- 00E0 (R174). -/
def execCls (s : State) : Outcome := .next s.clearDisplay.advance

/-- Dxyn (R175): coordinates and rows are read before VF is written; n = 0 reads nothing and writes VF = 0. -/
def execDrw (x y : Reg) (n : Nat) (s : State) : Outcome :=
  let d := drawSprite s.params (s.reg x) (s.reg y) (spriteRows s n) s.pix
  checkBlock (encode (.drw x y n)) n s ((s.setPix d.1).setReg VF (collisionFlag d.2)).advance

end Sys2Proof.Machine
end

