-- ==== Sys2Proof/Machine/Flow.lean ====
section
/-! DEFINITION. Control transfer (41_flow.md). -/

namespace Sys2Proof.Machine

/-- 00EE (R100): underflow when `SP = 0`; else `SP <- SP - 1; PC <- STACK[SP]`. -/
def execRet (s : State) : Outcome :=
  if s.sp = 0 then raiseFault .stackUnderflow (encode .ret) 0 s else .next s.popToPc

/-- 1nnn (R101). -/
def execJp (nnn : Addr) (s : State) : Outcome := .next (s.jump (zextAddr nnn))

/-- 2nnn (R102): overflow when `SP = 16`; else push `u16(PC + 2)` and jump. -/
def execCall (nnn : Addr) (s : State) : Outcome :=
  if s.sp = 16 then raiseFault .stackOverflow (encode (.call nnn)) 0 s
  else .next ((s.push (s.pc + 2)).jump (zextAddr nnn))

/-- Bnnn (R103). -/
def execJpV0 (nnn : Addr) (s : State) : Outcome := .next (s.jump (indexedTarget nnn s))

/-- 3xkk (R104). -/
def execSeImm (x : Reg) (kk : Byte) (s : State) : Outcome := .next (s.skipIf (s.reg x == kk))

/-- 4xkk (R105). -/
def execSneImm (x : Reg) (kk : Byte) (s : State) : Outcome := .next (s.skipIf (s.reg x != kk))

/-- 5xy0 (R106). -/
def execSeReg (x y : Reg) (s : State) : Outcome := .next (s.skipIf (s.reg x == s.reg y))

/-- 9xy0 (R107). -/
def execSneReg (x y : Reg) (s : State) : Outcome := .next (s.skipIf (s.reg x != s.reg y))

end Sys2Proof.Machine
end

