-- ==== Sys2Proof/Machine/IndexMemory.lean ====
section
/-! DEFINITION. Index register and memory instructions (43_index_memory.md). -/

namespace Sys2Proof.Machine

/-- Annn (R150). -/
def execLdI (nnn : Addr) (s : State) : Outcome := .next (s.setI (zextAddr nnn)).advance

/-- Fx1E (R151): `I <- u16(I + zext_16(V[x]))`, VF not written. -/
def execAddI (x : Reg) (s : State) : Outcome := .next (s.setI (s.i + zextByte (s.reg x))).advance

/-- Fx29 (R152). -/
def execLdFont (x : Reg) (s : State) : Outcome := .next (s.setI (glyphAddress s x)).advance

/-- Fx33 (R153): hundreds, tens and units of Vx to `I`, `I + 1`, `I + 2`. -/
def execLdBcd (x : Reg) (s : State) : Outcome :=
  let v := s.reg x
  let base := s.i.toNat
  checkBlock (encode (.ldBcd x)) 3 s
    (((s.storeByte base (bcdHundreds v)).storeByte (base + 1) (bcdTens v)).storeByte (base + 2) (bcdUnits v)).advance

/-- Fx55 (R154). -/
def execStoreRegs (x : Reg) (s : State) : Outcome :=
  checkBlock (encode (.storeRegs x)) (x.val + 1) s ((s.storeBlock s.i.toNat x).afterBlock x).advance

/-- Fx65 (R155). -/
def execLoadRegs (x : Reg) (s : State) : Outcome :=
  checkBlock (encode (.loadRegs x)) (x.val + 1) s ((s.loadBlock s.i.toNat x).afterBlock x).advance

end Sys2Proof.Machine
end

