-- ==== Sys2Proof/Machine/Keypad.lean ====
section
/-! DEFINITION. Key and timer instructions (45_keypad_timers.md). -/

namespace Sys2Proof.Machine

/-- Ex9E (R191). -/
def execSkp (x : Reg) (s : State) : Outcome :=
  let k := (s.reg x).toNat
  checkKey (encode (.skp x)) k s (s.skipIf (s.isPressed k))

/-- ExA1 (R192). -/
def execSknp (x : Reg) (s : State) : Outcome :=
  let k := (s.reg x).toNat
  checkKey (encode (.sknp x)) k s (s.skipIf (!s.isPressed k))

/-- Fx0A (R193): no key pressed, no state changes and `PC` stays on this instruction; else the lowest pressed key. -/
def execLdKey (x : Reg) (s : State) : Outcome :=
  match s.lowestKey with
  | none => .next s
  | some k => .next (s.setReg x (u8 k.val)).advance

/-- Fx07 (R194). -/
def execLdFromDt (x : Reg) (s : State) : Outcome := .next (s.setReg x s.dt).advance

/-- Fx15 (R195). -/
def execLdDt (x : Reg) (s : State) : Outcome := .next (s.setDt (s.reg x)).advance

/-- Fx18 (R196). -/
def execLdSt (x : Reg) (s : State) : Outcome := .next (s.setSt (s.reg x)).advance

end Sys2Proof.Machine
end

