-- ==== Sys2Proof/Machine/Step.lean ====
section
/-! DEFINITION. The step transaction (40_step.md R90), and the placing of a word where the next step fetches. -/

namespace Sys2Proof.Machine

/-- One step: refused while faulted, else fetch, decode and execute. -/
def step (s : State) : Host.Outcome State Fault Refusal := runStep exec s

/-- `s` ready to run, in its very next step, the instruction whose bits are `w`, numbered as spec/opcode_table.json numbers
them (log 9). -/
def State.withFetchWord (s : State) (nbits w : Nat) : State := s.placeWord (tableWord nbits w)

end Sys2Proof.Machine
end

