-- ==== Sys2Proof/Machine/Transactions.lean ====
section
/-! DEFINITION. The host interface (60_exceptions.md R222): ten atomic transactions, each with its effect and its reply. -/

namespace Sys2Proof.Machine

/-- A transaction and its arguments; an argument may be out of range, which is a host error (R215). -/
inductive Transaction where
  | reset
  | load (addr : Nat) (b : Byte)
  | step
  | press (k : Nat)
  | release (k : Nat)
  | tickTimers
  | readDisplay
  | readSound
  | readFault
  | skipFaulted
  deriving DecidableEq, Repr

/-- What a step returns to the host (40_step.md R96). -/
inductive StepResult where
  | ok
  | okUnrecognized
  | waitingKey
  | fault (cause : FaultCause)
  | refusedFaulted
  deriving DecidableEq, Repr

/-- What a transaction returns (R222). -/
inductive Reply where
  | done
  | ok
  | rejected
  | stepped (r : StepResult)
  | display (g : Grid)
  | sound (st : Byte)
  | faultStatus (faulted : Bool) (rec : FaultRecord)
  deriving DecidableEq, Repr

/-- The instruction that a step of `s` executes, if the fetch succeeds and the word is recognized. -/
def State.nextInstr (s : State) : Option Instr := s.fetch.bind decodeWord

/-- An Fx0A that finds no key pressed (45_keypad_timers.md R193). -/
def waitsForKey (i : Instr) (s : State) : Bool :=
  match i with
  | .ldKey _ => s.lowestKey.isNone
  | .cls | .ret | .jp _ | .call _ | .seImm _ _ | .sneImm _ _ | .seReg _ _ | .ldImm _ _ | .addImm _ _ | .ldReg _ _
  | .orReg _ _ | .andReg _ _ | .xorReg _ _ | .addReg _ _ | .subReg _ _ | .shr _ _ | .subn _ _ | .shl _ _ | .sneReg _ _
  | .ldI _ | .jpV0 _ | .rnd _ _ | .drw _ _ _ | .skp _ | .sknp _ | .ldFromDt _ | .ldDt _ | .ldSt _ | .addI _ | .ldFont _
  | .ldBcd _ | .storeRegs _ | .loadRegs _ => false

/-- The result of the step invoked in `s` (R96): a function of the state, not a piece of it (log 11). -/
def stepResult (s : State) : StepResult :=
  match step s with
  | .refused _ => .refusedFaulted
  | .fault e => nomatch e
  | .next t =>
    if t.faulted then .fault t.faultRecord.cause
    else
      match s.nextInstr with
      | none => .okUnrecognized
      | some i => if waitsForKey i s then .waitingKey else .ok

/-- The state after a step: a refused step changes nothing (60_exceptions.md R214, R215). -/
def stateAfterStep (s : State) : State :=
  match step s with
  | .refused _ => s
  | .fault e => nomatch e
  | .next t => t

/-- `reset()` (70_reset_and_hazards.md R240). The parameters are the instance's and stay; so does the count of random
bytes drawn, which is no state of the block (log 10). -/
def resetBlock (s : State) : State := State.resetOf s.params s.draws

/-- `if t > 0: t - 1`. -/
def decrementFloored (t : Byte) : Byte := if t = 0 then 0 else t - 1

/-- `tick_timers()` (R217). -/
def tickTimers (s : State) : State := { s with dt := decrementFloored s.dt, st := decrementFloored s.st }

/-- `load(addr, b)`: rejected above 0xFFF (R215, R222). -/
def loadByte (addr : Nat) (b : Byte) (s : State) : Reply × State :=
  if 0xFFF < addr then (.rejected, s) else (.ok, s.storeByte addr b)

/-- `press(k)` and `release(k)`: rejected above 15 (45_keypad_timers.md R190, R215). -/
def latchKey (k : Nat) (pressed : Bool) (s : State) : Reply × State :=
  if 15 < k then (.rejected, s) else (.ok, s.setKey k pressed)

/-- `skip_faulted()`: rejected while `FAULTED = 0` (R214, R215). -/
def skipFaulted (s : State) : Reply × State := if s.faulted then (.ok, s.leaveFault) else (.rejected, s)

/-- One transaction: its reply and the state after it. -/
def transact (t : Transaction) (s : State) : Reply × State :=
  match t with
  | .reset => (.done, resetBlock s)
  | .load addr b => loadByte addr b s
  | .step => (.stepped (stepResult s), stateAfterStep s)
  | .press k => latchKey k true s
  | .release k => latchKey k false s
  | .tickTimers => (.done, tickTimers s)
  | .readDisplay => (.display s.pix, s)
  | .readSound => (.sound s.st, s)
  | .readFault => (.faultStatus s.faulted s.faultRecord, s)
  | .skipFaulted => skipFaulted s

/-- The state after a list of transactions, in the order the host issues them (20_memory.md R61). -/
def runTransactions (ts : List Transaction) (s : State) : State :=
  match ts with
  | [] => s
  | t :: rest => runTransactions rest (transact t s).2

end Sys2Proof.Machine
end

