-- ==== Sys2Proof/Safety.lean ====
section
/-! DEFINITION. What every reachable state satisfies, and what a safe run is. -/

namespace Sys2Proof.Machine

/-- The invariant of the block: parameters that an instance can have (92_eei_decisions.md D15), memory in its one form
(10_state.md R31), a display of `DISPLAY_W` x `DISPLAY_H` pixels (R32), and, while the latch is set, a record that names a
cause (60_exceptions.md R211, R213). (`SP` in 0..16 and the register widths are in the types.) -/
structure State.Inv (s : State) : Prop where
  params : s.params.wf
  mem : s.mem.wf
  pix : s.pix.wf s.params.displayW s.params.displayH
  latch : s.faulted = true → s.faultRecord.cause ≠ .none

/-- The bounds of 40_step.md R98 and 41_flow.md R100: `PC` is at most 0x10FE, and every outstanding return address is at
most 0x1000. -/
structure State.PcInv (s : State) : Prop where
  pc : s.pc.toNat ≤ 0x10FE
  stack : ∀ j, j < s.sp.val → (s.stackAt j).toNat ≤ 0x1000

/-- A step is safe when it completes: it is not refused and raises no fault (70_reset_and_hazards.md R246). -/
def SafeStep (s : State) : Prop := ∃ t, step s = .next t ∧ t.faulted = false

/-- A run of `k` steps is safe when each of them is. -/
def SafeRun (k : Nat) (s : State) : Prop :=
  match k with
  | 0 => True
  | n + 1 => ∃ t, step s = .next t ∧ t.faulted = false ∧ SafeRun n t

end Sys2Proof.Machine
end

