-- ==== Sys2Proof/WellFormed.lean ====
section
/-! DEFINITION. Which terms of `Instr` are instructions of the set. Register indices, bytes and addresses are bounded by
their types (10_state.md R20); the row count of Dxyn is a 4-bit field, 0..15 (30_encoding.md R71). -/

namespace Sys2Proof

/-- An instruction is well-formed when its row count, if it has one, fits its field (R71; 00_scope.md R6 `SPRITE_MAX_ROWS`). -/
def Instr.wf (i : Instr) : Bool :=
  match i with
  | .drw _ _ n => n ≤ Config.spriteMaxRows
  | .cls | .ret | .jp _ | .call _ | .seImm _ _ | .sneImm _ _ | .seReg _ _ | .ldImm _ _ | .addImm _ _ | .ldReg _ _
  | .orReg _ _ | .andReg _ _ | .xorReg _ _ | .addReg _ _ | .subReg _ _ | .shr _ _ | .subn _ _ | .shl _ _ | .sneReg _ _
  | .ldI _ | .jpV0 _ | .rnd _ _ | .skp _ | .sknp _ | .ldFromDt _ | .ldKey _ | .ldDt _ | .ldSt _ | .addI _ | .ldFont _
  | .ldBcd _ | .storeRegs _ | .loadRegs _ => true

end Sys2Proof
end

