-- ==== Sys2Proof/Certificates/Slice0/Obligations.lean ====
section
/-! DEFINITION. The statements about the block. Each says a rule of spec/ in the spec's own arithmetic (numbers, not the
model's bit-vector expressions). A frame is an equation `t = { s with … }`: every field that is not named, hence every
register, flag, byte of memory, pixel, latch and parameter not named, is exactly as before. -/

open Sys2Proof Sys2Proof.Machine

/-! ### Words in which the statements are written -/

namespace Sys2Proof.Spec

/-- `x = op[11:8]`, as a number (30_encoding.md R70). -/
def x (op : Word) : Reg := Fin.ofNat 16 (op.toNat / 256)

/-- `y = op[7:4]`. -/
def y (op : Word) : Reg := Fin.ofNat 16 (op.toNat / 16)

/-- `n = op[3:0]`. -/
def n (op : Word) : Nat := op.toNat % 16

/-- `kk = op[7:0]`. -/
def kk (op : Word) : Byte := u8 op.toNat

/-- `nnn = op[11:0]`. -/
def nnn (op : Word) : Addr := BitVec.ofNat 12 op.toNat

/-- "Encoding: mask m, match p": the words with `(w & m) == p` are exactly those that decode to `mk w`. -/
def Encoded (mask pat : Word) (mk : Word → Instr) : Prop :=
  ∀ op : Word, op &&& mask = pat ↔ decodeWord op = some (mk op)

/-- `u16(PC + k)`. -/
def pcPlus (s : State) (k : Nat) : Word := u16 (s.pc.toNat + k)

/-- Nothing but general registers changed, and `PC` is `u16(PC + 2)`. -/
def RegsOnly (s t : State) : Prop := t = { s with v := t.v, pc := pcPlus s 2 }

/-- Nothing but memory changed, and `PC` is `u16(PC + 2)`. -/
def MemOnly (s t : State) : Prop := t = { s with mem := t.mem, pc := pcPlus s 2 }

/-- The state after fault entry (60_exceptions.md R213). -/
def faultedState (s : State) (cause : FaultCause) (op : Word) (addr : Nat) : State :=
  { s with faulted := true, faultRecord := { cause := cause, pc := s.pc, opcode := op, addr := addr } }

/-- `c ? 1 : 0` for a condition on numbers. -/
def bit (c : Bool) : Byte := u8 (if c then 1 else 0)

/-- VF after `a - b`: `a >= b` under `NO_BORROW`, `a < b` under `REFERENCE_LT` (42_alu.md R128). -/
def subFlag (mode : BorrowFlagMode) (a b : Nat) : Byte :=
  match mode with
  | .noBorrow => bit (decide (b ≤ a))
  | .referenceLt => bit (decide (a < b))

/-- The register that 8xy6 and 8xyE shift (42_alu.md R129). -/
def shifted (s : State) (x y : Reg) : Nat :=
  match s.params.shiftSource with
  | .vx => (s.reg x).toNat
  | .vy => (s.reg y).toNat

/-- `I` after Fx55 and Fx65 (43_index_memory.md R154, R155). -/
def indexAfterBlock (s : State) (x : Reg) : Word :=
  match s.params.loadstoreIncrementsI with
  | false => s.i
  | true => u16 (s.i.toNat + x.val + 1)

/-- The byte at address `a` after Fx33 stored its digits at `I`..`I + 2` (43_index_memory.md R153). -/
def byteAfterBcd (s : State) (x : Reg) (a : Nat) : Nat :=
  let v := (s.reg x).toNat
  if a = s.i.toNat then v / 100
  else if a = s.i.toNat + 1 then v / 10 % 10
  else if a = s.i.toNat + 2 then v % 10
  else (s.readByte a).toNat

/-- The byte at address `a` after Fx55 stored V0..Vx at `I`..`I + x` (43_index_memory.md R154). -/
def byteAfterStore (s : State) (x : Reg) (a : Nat) : Nat :=
  if s.i.toNat ≤ a ∧ a ≤ s.i.toNat + x.val then (s.reg (Fin.ofNat 16 (a - s.i.toNat))).toNat else (s.readByte a).toNat

/-- The byte at address `a` after the host loaded `b` at `l` (60_exceptions.md R222). -/
def byteAfterLoad (s : State) (l : Nat) (b : Byte) (a : Nat) : Nat := if a = l then b.toNat else (s.readByte a).toNat

/-- The instructions that can fault after their fetch (60_exceptions.md R211). -/
def CanFault (i : Instr) : Prop :=
  i = .ret ∨ (∃ nnn, i = .call nnn) ∨ (∃ x y n, i = .drw x y n) ∨
    ∃ x, i = .skp x ∨ i = .sknp x ∨ i = .ldBcd x ∨ i = .storeRegs x ∨ i = .loadRegs x

/-- How many bytes the instruction accesses from `I` on: n, 3, x + 1 and x + 1 for Dxyn, Fx33, Fx55 and Fx65, and no
instruction else does (43_index_memory.md R156). -/
def blockLength (i : Instr) : Option Nat :=
  match i with
  | .drw _ _ n => some n
  | .ldBcd _ => some 3
  | .storeRegs x => some (x.val + 1)
  | .loadRegs x => some (x.val + 1)
  | .cls | .ret | .jp _ | .call _ | .seImm _ _ | .sneImm _ _ | .seReg _ _ | .ldImm _ _ | .addImm _ _ | .ldReg _ _
  | .orReg _ _ | .andReg _ _ | .xorReg _ _ | .addReg _ _ | .subReg _ _ | .shr _ _ | .subn _ _ | .shl _ _ | .sneReg _ _
  | .ldI _ | .jpV0 _ | .rnd _ _ | .skp _ | .sknp _ | .ldFromDt _ | .ldKey _ | .ldDt _ | .ldSt _ | .addI _
  | .ldFont _ => none

/-- Bit of the sprite at row r, column c: bit 7 of the byte `MEM[I + r]` is column 0 (44_display.md R171). -/
def spriteBit (s : State) (r c : Nat) : Bool := (s.readByte (s.i.toNat + r)).toNat / 2 ^ (7 - c) % 2 == 1

/-- How many bits of the n-row sprite at (Vx, Vy) fall on pixel (px, py), both axes wrapped (44_display.md R171, R172). -/
def hits (s : State) (x y : Reg) (n px py : Nat) : Nat :=
  ((List.range n).map fun r =>
    (List.range 8).countP fun c =>
      spriteBit s r c && ((s.reg x).toNat + c) % s.params.displayW == px
        && ((s.reg y).toNat + r) % s.params.displayH == py).sum

/-- A set bit of the n-row sprite at (Vx, Vy) falls on pixel (px, py), both axes wrapped (44_display.md R171, R172). -/
def Covers (s : State) (x y : Reg) (n px py : Nat) : Prop :=
  ∃ r c, r < n ∧ c < 8 ∧ spriteBit s r c = true ∧ ((s.reg x).toNat + c) % s.params.displayW = px ∧
    ((s.reg y).toNat + r) % s.params.displayH = py

/-- The draw turns a lit pixel unlit: a lit pixel is hit, or a pixel is hit twice (44_display.md R171). -/
def Collides (s : State) (x y : Reg) (n : Nat) : Prop :=
  ∃ px py, px < s.params.displayW ∧ py < s.params.displayH ∧
    (1 ≤ hits s x y n px py ∧ s.pixel px py = true ∨ 2 ≤ hits s x y n px py)

/-- No key is pressed. -/
def NoKey (s : State) : Prop := ∀ k, k < 16 → s.isPressed k = false

/-- The program-counter policy table for an instruction that completes (40_step.md R93). -/
def nextPc (i : Instr) (s : State) : Word :=
  let skip (c : Bool) : Word := if c then pcPlus s 4 else pcPlus s 2
  match i with
  | .cls | .ldImm _ _ | .addImm _ _ | .ldReg _ _ | .orReg _ _ | .andReg _ _ | .xorReg _ _ | .addReg _ _ | .subReg _ _
  | .shr _ _ | .subn _ _ | .shl _ _ | .ldI _ | .rnd _ _ | .drw _ _ _ | .ldFromDt _ | .ldDt _ | .ldSt _ | .addI _
  | .ldFont _ | .ldBcd _ | .storeRegs _ | .loadRegs _ => pcPlus s 2
  | .seImm x kk => skip (decide (s.reg x = kk))
  | .sneImm x kk => skip (decide (s.reg x ≠ kk))
  | .seReg x y => skip (decide (s.reg x = s.reg y))
  | .sneReg x y => skip (decide (s.reg x ≠ s.reg y))
  | .skp x => skip (s.isPressed (s.reg x).toNat)
  | .sknp x => skip (!s.isPressed (s.reg x).toNat)
  | .ret => s.stackAt (s.sp.val - 1)
  | .jp nnn => u16 nnn.toNat
  | .call nnn => u16 nnn.toNat
  | .jpV0 nnn => u16 (nnn.toNat + (s.reg 0).toNat)
  | .ldKey _ => if (List.range 16).any s.isPressed then pcPlus s 2 else s.pc

/-- The "reads" column of 10_state.md R23: whether the instruction reads V[r]. -/
def reads (i : Instr) (p : Params) (r : Reg) : Bool :=
  match i with
  | .seImm x _ | .sneImm x _ | .addImm x _ => r == x
  | .seReg x y | .sneReg x y | .orReg x y | .andReg x y | .xorReg x y | .addReg x y | .subReg x y | .subn x y
  | .drw x y _ => r == x || r == y
  | .ldReg _ y => r == y
  | .shr x y | .shl x y => match p.shiftSource with | .vx => r == x | .vy => r == y
  | .jpV0 _ => r == 0
  | .skp x | .sknp x | .ldDt x | .ldSt x | .addI x | .ldFont x | .ldBcd x => r == x
  | .storeRegs x => decide (r ≤ x)
  | .cls | .ret | .jp _ | .call _ | .ldImm _ _ | .ldI _ | .rnd _ _ | .ldFromDt _ | .ldKey _ | .loadRegs _ => false

/-- The "writes" column of 10_state.md R23: whether the instruction may write V[r]. -/
def writes (i : Instr) (r : Reg) : Bool :=
  match i with
  | .ldImm x _ | .addImm x _ | .ldReg x _ | .orReg x _ | .andReg x _ | .xorReg x _ | .rnd x _ | .ldFromDt x
  | .ldKey x => r == x
  | .addReg x _ | .subReg x _ | .subn x _ | .shr x _ | .shl x _ => r == x || r == VF
  | .drw _ _ _ => r == VF
  | .loadRegs x => decide (r ≤ x)
  | .cls | .ret | .jp _ | .call _ | .seImm _ _ | .sneImm _ _ | .seReg _ _ | .sneReg _ _ | .ldI _ | .jpV0 _ | .skp _
  | .sknp _ | .ldDt _ | .ldSt _ | .addI _ | .ldFont _ | .ldBcd _ | .storeRegs _ => false

/-- Two states that differ at most in what 10_state.md R38 says no program observes: the sound timer, the stack entries at
or above `SP`, and the fault record. -/
def SameToPrograms (s s' : State) : Prop :=
  s' = { s with st := s'.st, stack := s'.stack, faultRecord := s'.faultRecord } ∧
    ∀ j, j < s.sp.val → s'.stackAt j = s.stackAt j

end Sys2Proof.Spec

/-! ### Encoding (30_encoding.md) -/

/-- No bit of an encoding is dropped: decoding the word, or the bytes, of a well-formed instruction gives it back. -/
def Obligations.DecodeInvertsEncode : Prop :=
  ∀ (i : Instr) (rest : List Byte), i.wf = true →
    decodeWord (encode i) = some i ∧ decode (encodeBytes i ++ rest) = .instr i rest

/-- R92: the decoder returns the one row of R73 whose masked word matches, its fields those of the word, or the
unrecognized outcome if none matches. -/
def Obligations.DecodeReturnsTheMatchingRow : Prop :=
  ∀ op : Word,
    (∀ row ∈ opcodeMap, op &&& row.1 = row.2 ↔ ∃ i, decodeWord op = some i ∧ rowOf i = row) ∧
      ∀ i, decodeWord op = some i → rowOf i ∈ opcodeMap ∧ encode i = op ∧ i.wf = true

/-- R75's table: the words that no row matches are exactly the six groups. -/
def Obligations.UnrecognizedWordsAreTheSixGroups : Prop :=
  ∀ op : Word,
    let n1 := op.toNat / 4096
    let n := op.toNat % 16
    let kk := op.toNat % 256
    decodeWord op = none ↔
      (n1 = 0x0 ∧ op ≠ 0x00E0 ∧ op ≠ 0x00EE) ∨ (n1 = 0x5 ∧ n ≠ 0) ∨ (n1 = 0x8 ∧ n ∈ [0x8, 0x9, 0xA, 0xB, 0xC, 0xD, 0xF]) ∨
        (n1 = 0x9 ∧ n ≠ 0) ∨ (n1 = 0xE ∧ kk ∉ [0x9E, 0xA1]) ∨
          (n1 = 0xF ∧ kk ∉ [0x07, 0x0A, 0x15, 0x18, 0x1E, 0x29, 0x33, 0x55, 0x65])

/-- Words written out from the patterns of R73, one or more per family. -/
def Obligations.WordsOfTheMapDecode : Prop :=
  decodeWord 0b0000000011100000 = some .cls ∧ decodeWord 0b0000000011101110 = some .ret ∧
    decodeWord 0b0010101010111100 = some (.call 0xABC) ∧ decodeWord 0b0011001101000010 = some (.seImm 3 0x42) ∧
      decodeWord 0b1000000100100101 = some (.subReg 1 2) ∧ decodeWord 0b1000111100011110 = some (.shl 15 1) ∧
        decodeWord 0b1101000000010010 = some (.drw 0 1 2) ∧ decodeWord 0b1110010110100001 = some (.sknp 5) ∧
          decodeWord 0b1111001101010101 = some (.storeRegs 3) ∧ decodeWord 0b0101000100100001 = none

/-! ### The step (40_step.md) -/

/-- R90: a step is refused while faulted; a fetch outside the memory faults; else the big-endian word at `PC` is decoded and
the instruction it selects is executed, an unrecognized word advancing `PC` by 2. -/
def Obligations.StepFetchesDecodesExecutes : Prop :=
  (∀ s : State, s.faulted = true → step s = .refused .refusedFaulted) ∧
    (∀ s : State, s.faulted = false → 0xFFE < s.pc.toNat →
      step s = .next (Spec.faultedState s .fetchOutOfRange 0 s.pc.toNat)) ∧
      ∀ (s : State) (op : Word), s.faulted = false → s.pc.toNat ≤ 0xFFE →
        op.toNat = (s.readByte s.pc.toNat).toNat * 256 + (s.readByte (s.pc.toNat + 1)).toNat →
          (∀ i, decodeWord op = some i → step s = exec i s) ∧
            (decodeWord op = none → step s = .next { s with pc := Spec.pcPlus s 2 })

/-- A step runs the instruction whose bytes stand at `PC`, for every well-formed instruction, also after those bytes are
placed there from outside (log 9). -/
def Obligations.StepRunsTheInstructionAtPc : Prop :=
  (∀ (s : State) (i : Instr), s.faulted = false → i.wf = true → s.pc.toNat ≤ 0xFFE →
      s.readByte s.pc.toNat = highByte (encode i) → s.readByte (s.pc.toNat + 1) = lowByte (encode i) →
        step s = exec i s) ∧
    ∀ (s : State) (i : Instr), i.wf = true → Memory.wf s.mem → s.faulted = false → s.pc.toNat ≤ 0xFFE →
      let t := s.withFetchWord 16 (encode i).toNat
      step t = exec i t ∧ t = { s with mem := t.mem } ∧
        ∀ a, a ≠ s.pc.toNat → a ≠ s.pc.toNat + 1 → t.readByte a = s.readByte a

/-- R95: an unrecognized word changes nothing but `PC`, and is reported as `OK_UNRECOGNIZED`; the zero word is one. -/
def Obligations.UnrecognizedWordIsANoOp : Prop :=
  decodeWord 0x0000 = none ∧
    ∀ (s : State) (op : Word), s.faulted = false → s.fetch = some op → decodeWord op = none →
      step s = .next { s with pc := Spec.pcPlus s 2 } ∧ stepResult s = .okUnrecognized

/-- R96: when each of the five results is returned. -/
def Obligations.StepResultsAreTheFive : Prop :=
  ∀ s : State,
    (stepResult s = .refusedFaulted ↔ s.faulted = true) ∧
      (∀ c, stepResult s = .fault c ↔
        s.faulted = false ∧ ∃ t, step s = .next t ∧ t.faulted = true ∧ t.faultRecord.cause = c) ∧
        (stepResult s = .okUnrecognized ↔ s.faulted = false ∧ ∃ op, s.fetch = some op ∧ decodeWord op = none) ∧
          (stepResult s = .waitingKey ↔ s.faulted = false ∧ (∃ x, s.nextInstr = some (.ldKey x)) ∧ Spec.NoKey s) ∧
            (stepResult s = .waitingKey → step s = .next s) ∧
              (stepResult s = .ok ↔ s.faulted = false ∧ ∃ i t, s.nextInstr = some i ∧ step s = .next t ∧
                t.faulted = false ∧ ¬((∃ x, i = .ldKey x) ∧ Spec.NoKey s))

/-- R93: the program-counter policy of every instruction, of an unrecognized word and of a faulting step. -/
def Obligations.ProgramCounterPolicy : Prop :=
  ∀ s t : State, s.faulted = false → step s = .next t →
    (t.faulted = true → t.pc = s.pc) ∧
      (∀ i, s.nextInstr = some i → t.faulted = false → t.pc = Spec.nextPc i s) ∧
        (∀ op, s.fetch = some op → decodeWord op = none → t.pc = Spec.pcPlus s 2)

/-- Every instruction has an answer in every state: none is refused and none ends the machine (R76, R216). -/
def Obligations.EveryInstructionAnswersANextState : Prop :=
  ∀ (i : Instr) (s : State), ∃ t, exec i s = .next t

/-! ### Faults (60_exceptions.md) -/

/-- R213: a faulting step sets the latch and the record and changes nothing else. -/
def Obligations.FaultEntryChangesOnlyTheLatch : Prop :=
  ∀ s t : State, s.faulted = false → step s = .next t → t.faulted = true →
    t = { s with faulted := true, faultRecord := t.faultRecord } ∧ t.faultRecord.pc = s.pc ∧
      (t.faultRecord.cause = .fetchOutOfRange → t.faultRecord.opcode = 0) ∧
        (t.faultRecord.cause ≠ .fetchOutOfRange → s.fetch = some t.faultRecord.opcode) ∧
          stepResult s = .fault t.faultRecord.cause

/-- R211's table, read from a fault that was raised: who raised it, on what condition, and what `addr` records; and the
codes. -/
def Obligations.FaultsAreThoseOfTheTable : Prop :=
  ([FaultCause.none, .fetchOutOfRange, .stackOverflow, .stackUnderflow, .memoryOutOfRange, .keyOutOfRange].map
      FaultCause.code = [0, 1, 2, 3, 4, 5]) ∧
    ∀ s t : State, s.faulted = false → step s = .next t → t.faulted = true →
      match t.faultRecord.cause with
      | .none => False
      | .fetchOutOfRange => 0xFFE < s.pc.toNat ∧ t.faultRecord.addr = s.pc.toNat
      | .stackOverflow => (∃ nnn, s.nextInstr = some (.call nnn)) ∧ s.sp.val = 16 ∧ t.faultRecord.addr = 0
      | .stackUnderflow => s.nextInstr = some .ret ∧ s.sp.val = 0 ∧ t.faultRecord.addr = 0
      | .memoryOutOfRange => ∃ i k j, s.nextInstr = some i ∧ Spec.blockLength i = some k ∧ j < k ∧
          t.faultRecord.addr = s.i.toNat + j ∧ 0xFFF < s.i.toNat + j ∧ ∀ j', j' < j → s.i.toNat + j' ≤ 0xFFF
      | .keyOutOfRange => ∃ x, (s.nextInstr = some (.skp x) ∨ s.nextInstr = some (.sknp x)) ∧ 15 < (s.reg x).toNat ∧
          t.faultRecord.addr = (s.reg x).toNat

/-- R156: an I-relative access faults with the lowest address above 0xFFF, before any write, and with no such address the
instruction raises nothing. -/
def Obligations.BlockAccessFaultsAtTheLowestAddress : Prop :=
  ∀ (i : Instr) (k : Nat) (s : State), Spec.blockLength i = some k →
    (∀ j, j < k → 0xFFF < s.i.toNat + j → (∀ j', j' < j → s.i.toNat + j' ≤ 0xFFF) →
      exec i s = .next (Spec.faultedState s .memoryOutOfRange (encode i) (s.i.toNat + j))) ∧
      ((∀ j, j < k → s.i.toNat + j ≤ 0xFFF) →
        ∃ t, exec i s = .next t ∧ t.faulted = s.faulted ∧ t.faultRecord = s.faultRecord)

/-- R214: while faulted every step is refused and changes nothing; reset leaves the state, and so does skip, which moves
`PC` past the instruction and keeps the record. -/
def Obligations.FaultedBlockRefusesStepsUntilSkipOrReset : Prop :=
  ∀ s : State, s.faulted = true →
    step s = .refused .refusedFaulted ∧ transact .step s = (.stepped .refusedFaulted, s) ∧
      transact .skipFaulted s = (.ok, { s with pc := Spec.pcPlus s 2, faulted := false }) ∧
        (transact .reset s).2.faulted = false

/-! ### Control transfer (41_flow.md) -/

/-- R100: 00EE pops the return address into `PC`, or faults on an empty stack. -/
def Obligations.ReturnPopsTheStack : Prop :=
  Spec.Encoded 0xFFFF 0x00EE (fun _ => .ret) ∧
    ∀ s : State,
      (s.sp.val = 0 → exec .ret s = .next (Spec.faultedState s .stackUnderflow 0x00EE 0)) ∧
        (0 < s.sp.val → ∃ t, exec .ret s = .next t ∧ t.sp.val = s.sp.val - 1 ∧
          t = { s with sp := t.sp, pc := s.stackAt (s.sp.val - 1) })

/-- R101, R103: 1nnn and Bnnn set `PC` to `nnn` and to `nnn + V0`, not reduced, and change nothing else. -/
def Obligations.JumpsSetOnlyPc : Prop :=
  Spec.Encoded 0xF000 0x1000 (fun op => .jp (Spec.nnn op)) ∧ Spec.Encoded 0xF000 0xB000 (fun op => .jpV0 (Spec.nnn op)) ∧
    ∀ (nnn : Addr) (s : State),
      exec (.jp nnn) s = .next { s with pc := u16 nnn.toNat } ∧
        ∃ t, exec (.jpV0 nnn) s = .next t ∧ t = { s with pc := t.pc } ∧ t.pc.toNat = nnn.toNat + (s.reg 0).toNat

/-- R102: 2nnn pushes `u16(PC + 2)` and jumps, or faults when 16 calls are outstanding. -/
def Obligations.CallPushesTheReturnAddress : Prop :=
  Spec.Encoded 0xF000 0x2000 (fun op => .call (Spec.nnn op)) ∧
    ∀ (nnn : Addr) (s : State),
      (s.sp.val = 16 →
        exec (.call nnn) s = .next (Spec.faultedState s .stackOverflow (u16 (0x2000 + nnn.toNat)) 0)) ∧
        (s.sp.val < 16 → ∃ t, exec (.call nnn) s = .next t ∧ t.sp.val = s.sp.val + 1 ∧
          (∀ j, t.stackAt j = if j = s.sp.val then Spec.pcPlus s 2 else s.stackAt j) ∧
            t = { s with stack := t.stack, sp := t.sp, pc := u16 nnn.toNat })

/-- A return undoes a call: execution resumes after the call with the stack as deep as before. -/
def Obligations.ReturnUndoesCall : Prop :=
  ∀ (nnn : Addr) (s : State), s.sp.val < 16 →
    ∃ t u, exec (.call nnn) s = .next t ∧ exec .ret t = .next u ∧
      u = { s with stack := u.stack, pc := Spec.pcPlus s 2 } ∧ ∀ j, j ≠ s.sp.val → u.stackAt j = s.stackAt j

/-- R104-R107: the register skips set `PC` to `PC + 4` or `PC + 2` and change nothing else. -/
def Obligations.SkipsOnRegisters : Prop :=
  Spec.Encoded 0xF000 0x3000 (fun op => .seImm (Spec.x op) (Spec.kk op)) ∧
    Spec.Encoded 0xF000 0x4000 (fun op => .sneImm (Spec.x op) (Spec.kk op)) ∧
      Spec.Encoded 0xF00F 0x5000 (fun op => .seReg (Spec.x op) (Spec.y op)) ∧
        Spec.Encoded 0xF00F 0x9000 (fun op => .sneReg (Spec.x op) (Spec.y op)) ∧
          ∀ (x y : Reg) (kk : Byte) (s : State),
            exec (.seImm x kk) s = .next { s with pc := if s.reg x = kk then Spec.pcPlus s 4 else Spec.pcPlus s 2 } ∧
              exec (.sneImm x kk) s =
                .next { s with pc := if s.reg x ≠ kk then Spec.pcPlus s 4 else Spec.pcPlus s 2 } ∧
                exec (.seReg x y) s =
                  .next { s with pc := if s.reg x = s.reg y then Spec.pcPlus s 4 else Spec.pcPlus s 2 } ∧
                  exec (.sneReg x y) s =
                    .next { s with pc := if s.reg x ≠ s.reg y then Spec.pcPlus s 4 else Spec.pcPlus s 2 }

/-- R191, R192: the key skips fault on an index above 15, and else set only `PC`. -/
def Obligations.SkipsOnKeys : Prop :=
  Spec.Encoded 0xF0FF 0xE09E (fun op => .skp (Spec.x op)) ∧ Spec.Encoded 0xF0FF 0xE0A1 (fun op => .sknp (Spec.x op)) ∧
    ∀ (x : Reg) (s : State),
      let k := (s.reg x).toNat
      (15 < k →
        exec (.skp x) s = .next (Spec.faultedState s .keyOutOfRange (u16 (0xE09E + x.val * 256)) k) ∧
          exec (.sknp x) s = .next (Spec.faultedState s .keyOutOfRange (u16 (0xE0A1 + x.val * 256)) k)) ∧
        (k ≤ 15 →
          exec (.skp x) s =
            .next { s with pc := if s.isPressed k = true then Spec.pcPlus s 4 else Spec.pcPlus s 2 } ∧
            exec (.sknp x) s =
              .next { s with pc := if s.isPressed k = false then Spec.pcPlus s 4 else Spec.pcPlus s 2 })

/-! ### Register loads and the ALU (42_alu.md) -/

/-- R121-R123: 6xkk, 7xkk and 8xy0 write Vx alone and advance `PC`. -/
def Obligations.LoadsAndAddImmediateWriteVx : Prop :=
  Spec.Encoded 0xF000 0x6000 (fun op => .ldImm (Spec.x op) (Spec.kk op)) ∧
    Spec.Encoded 0xF000 0x7000 (fun op => .addImm (Spec.x op) (Spec.kk op)) ∧
      Spec.Encoded 0xF00F 0x8000 (fun op => .ldReg (Spec.x op) (Spec.y op)) ∧
        ∀ (x y : Reg) (kk : Byte) (s : State),
          (∃ t, exec (.ldImm x kk) s = .next t ∧ Spec.RegsOnly s t ∧ ∀ r, t.reg r = if r = x then kk else s.reg r) ∧
            (∃ t, exec (.addImm x kk) s = .next t ∧ Spec.RegsOnly s t ∧
              ∀ r, t.reg r = if r = x then u8 ((s.reg x).toNat + kk.toNat) else s.reg r) ∧
              ∃ t, exec (.ldReg x y) s = .next t ∧ Spec.RegsOnly s t ∧ ∀ r, t.reg r = if r = x then s.reg y else s.reg r

/-- R124-R126: OR, AND and XOR, bit by bit; VF is written only as Vx. -/
def Obligations.LogicOperationsActBitwise : Prop :=
  Spec.Encoded 0xF00F 0x8001 (fun op => .orReg (Spec.x op) (Spec.y op)) ∧
    Spec.Encoded 0xF00F 0x8002 (fun op => .andReg (Spec.x op) (Spec.y op)) ∧
      Spec.Encoded 0xF00F 0x8003 (fun op => .xorReg (Spec.x op) (Spec.y op)) ∧
        ∀ (x y : Reg) (s : State),
          (∃ t, exec (.orReg x y) s = .next t ∧ Spec.RegsOnly s t ∧ (∀ r, r ≠ x → t.reg r = s.reg r) ∧
            ∀ k, (t.reg x).getLsbD k = ((s.reg x).getLsbD k || (s.reg y).getLsbD k)) ∧
            (∃ t, exec (.andReg x y) s = .next t ∧ Spec.RegsOnly s t ∧ (∀ r, r ≠ x → t.reg r = s.reg r) ∧
              ∀ k, (t.reg x).getLsbD k = ((s.reg x).getLsbD k && (s.reg y).getLsbD k)) ∧
              ∃ t, exec (.xorReg x y) s = .next t ∧ Spec.RegsOnly s t ∧ (∀ r, r ≠ x → t.reg r = s.reg r) ∧
                ∀ k, (t.reg x).getLsbD k = ((s.reg x).getLsbD k ^^ (s.reg y).getLsbD k)

/-- R127: 8xy4 writes the sum modulo 256 to Vx, then the carry to VF. -/
def Obligations.AddWritesSumAndCarry : Prop :=
  Spec.Encoded 0xF00F 0x8004 (fun op => .addReg (Spec.x op) (Spec.y op)) ∧
    ∀ (x y : Reg) (s : State),
      let sum := (s.reg x).toNat + (s.reg y).toNat
      ∃ t, exec (.addReg x y) s = .next t ∧ Spec.RegsOnly s t ∧
        ∀ r, t.reg r = if r = 15 then Spec.bit (decide (255 < sum)) else if r = x then u8 sum else s.reg r

/-- R128, R130: 8xy5 and 8xy7 write the difference modulo 256 to Vx, then the flag of `BORROW_FLAG_MODE` to VF. -/
def Obligations.SubtractsWriteDifferenceAndBorrow : Prop :=
  Spec.Encoded 0xF00F 0x8005 (fun op => .subReg (Spec.x op) (Spec.y op)) ∧
    Spec.Encoded 0xF00F 0x8007 (fun op => .subn (Spec.x op) (Spec.y op)) ∧
      ∀ (x y : Reg) (s : State),
        let a := (s.reg x).toNat
        let b := (s.reg y).toNat
        (∃ t, exec (.subReg x y) s = .next t ∧ Spec.RegsOnly s t ∧
          ∀ r, t.reg r = if r = 15 then Spec.subFlag s.params.borrowFlagMode a b
            else if r = x then u8 (a + 256 - b) else s.reg r) ∧
          ∃ t, exec (.subn x y) s = .next t ∧ Spec.RegsOnly s t ∧
            ∀ r, t.reg r = if r = 15 then Spec.subFlag s.params.borrowFlagMode b a
              else if r = x then u8 (b + 256 - a) else s.reg r

/-- R129, R131: 8xy6 and 8xyE shift the register of `SHIFT_SOURCE` by one into Vx, then write the bit shifted out to VF. -/
def Obligations.ShiftsWriteResultAndDroppedBit : Prop :=
  Spec.Encoded 0xF00F 0x8006 (fun op => .shr (Spec.x op) (Spec.y op)) ∧
    Spec.Encoded 0xF00F 0x800E (fun op => .shl (Spec.x op) (Spec.y op)) ∧
      ∀ (x y : Reg) (s : State),
        let v := Spec.shifted s x y
        (∃ t, exec (.shr x y) s = .next t ∧ Spec.RegsOnly s t ∧
          ∀ r, t.reg r = if r = 15 then u8 (v % 2) else if r = x then u8 (v / 2) else s.reg r) ∧
          ∃ t, exec (.shl x y) s = .next t ∧ Spec.RegsOnly s t ∧
            ∀ r, t.reg r = if r = 15 then u8 (v / 128) else if r = x then u8 (2 * v) else s.reg r

/-- Cxkk writes a free random byte masked by kk to Vx alone, whatever the byte is (R132). That the byte is
`Config.rand8` of the counter `draws`, and that the counter advances so that the next draw is another free value, is the
model's choice (log 2). -/
def Obligations.RandomByteIsMasked : Prop :=
  Spec.Encoded 0xF000 0xC000 (fun op => .rnd (Spec.x op) (Spec.kk op)) ∧
    ∀ (x : Reg) (kk : Byte) (s : State),
      ∃ t, exec (.rnd x kk) s = .next t ∧
        (∀ k, (t.reg x).getLsbD k = ((Config.rand8 s.draws).getLsbD k && kk.getLsbD k)) ∧
          (∀ r, r ≠ x → t.reg r = s.reg r) ∧
            t = { s with v := t.v, pc := Spec.pcPlus s 2, draws := s.draws + 1 }

/-! ### Index register and memory (43_index_memory.md) -/

/-- R150-R152: Annn, Fx1E and Fx29 write `I` alone and advance `PC`. -/
def Obligations.IndexInstructionsWriteI : Prop :=
  Spec.Encoded 0xF000 0xA000 (fun op => .ldI (Spec.nnn op)) ∧ Spec.Encoded 0xF0FF 0xF01E (fun op => .addI (Spec.x op)) ∧
    Spec.Encoded 0xF0FF 0xF029 (fun op => .ldFont (Spec.x op)) ∧
      ∀ (nnn : Addr) (x : Reg) (s : State),
        exec (.ldI nnn) s = .next { s with i := u16 nnn.toNat, pc := Spec.pcPlus s 2 } ∧
          exec (.addI x) s = .next { s with i := u16 (s.i.toNat + (s.reg x).toNat), pc := Spec.pcPlus s 2 } ∧
            exec (.ldFont x) s =
              .next { s with i := u16 (s.params.fontBase.toNat + (s.reg x).toNat * 5), pc := Spec.pcPlus s 2 }

/-- R153: Fx33 stores the three decimal digits of Vx at `I`, `I + 1`, `I + 2` and no other byte, or faults and stores none. -/
def Obligations.BcdStoresThreeDigits : Prop :=
  Spec.Encoded 0xF0FF 0xF033 (fun op => .ldBcd (Spec.x op)) ∧
    ∀ (x : Reg) (s : State), Memory.wf s.mem →
      let v := (s.reg x).toNat
      let base := s.i.toNat
      (base + 2 ≤ 0xFFF → ∃ t, exec (.ldBcd x) s = .next t ∧ Spec.MemOnly s t ∧
        ∀ a, t.readByte a = if a = base then u8 (v / 100) else if a = base + 1 then u8 (v / 10 % 10)
          else if a = base + 2 then u8 (v % 10) else s.readByte a) ∧
        (0xFFF < base + 2 → exec (.ldBcd x) s =
          .next (Spec.faultedState s .memoryOutOfRange (u16 (0xF033 + x.val * 256)) (max base 0x1000)))

/-- R154: Fx55 stores V0..Vx at `I`..`I + x` and no other byte, or faults and stores none; `I` moves only when
`LOADSTORE_INCREMENTS_I`. -/
def Obligations.StoreRegistersWritesTheBlock : Prop :=
  Spec.Encoded 0xF0FF 0xF055 (fun op => .storeRegs (Spec.x op)) ∧
    ∀ (x : Reg) (s : State), Memory.wf s.mem →
      let base := s.i.toNat
      (base + x.val ≤ 0xFFF → ∃ t, exec (.storeRegs x) s = .next t ∧
        t = { s with mem := t.mem, i := Spec.indexAfterBlock s x, pc := Spec.pcPlus s 2 } ∧
          (∀ j, j ≤ x → t.readByte (base + j.val) = s.reg j) ∧
            ∀ a, a < base ∨ base + x.val < a → t.readByte a = s.readByte a) ∧
        (0xFFF < base + x.val → exec (.storeRegs x) s =
          .next (Spec.faultedState s .memoryOutOfRange (u16 (0xF055 + x.val * 256)) (max base 0x1000)))

/-- R155: Fx65 loads V0..Vx from `I`..`I + x` and leaves the other registers and all memory, or faults and loads none. -/
def Obligations.LoadRegistersReadsTheBlock : Prop :=
  Spec.Encoded 0xF0FF 0xF065 (fun op => .loadRegs (Spec.x op)) ∧
    ∀ (x : Reg) (s : State),
      let base := s.i.toNat
      (base + x.val ≤ 0xFFF → ∃ t, exec (.loadRegs x) s = .next t ∧
        t = { s with v := t.v, i := Spec.indexAfterBlock s x, pc := Spec.pcPlus s 2 } ∧
          ∀ r, t.reg r = if r ≤ x then s.readByte (base + r.val) else s.reg r) ∧
        (0xFFF < base + x.val → exec (.loadRegs x) s =
          .next (Spec.faultedState s .memoryOutOfRange (u16 (0xF065 + x.val * 256)) (max base 0x1000)))

/-- Fn65 after Fn55 with the same `I` restores V0..Vn whatever the registers held in between. -/
def Obligations.LoadAfterStoreRestoresRegisters : Prop :=
  ∀ (x : Reg) (s t u : State), Memory.wf s.mem → s.i.toNat + x.val ≤ 0xFFF → exec (.storeRegs x) s = .next t →
    u.mem = t.mem → u.i = s.i →
      ∃ w, exec (.loadRegs x) u = .next w ∧ ∀ r, w.reg r = if r ≤ x then s.reg r else u.reg r

/-- A byte stored by Fx33, by Fx55 or by the host's load is what the next fetch reads, wherever in the memory `PC` then
stands: the fetch reads, high byte first, the two bytes as the store left them (R64, R52). -/
def Obligations.StoredBytesAreFetchedNext : Prop :=
  (∀ (x : Reg) (s : State), Memory.wf s.mem → s.i.toNat + 2 ≤ 0xFFF →
      ∃ t, exec (.ldBcd x) s = .next t ∧ ∀ p : Word, p.toNat ≤ 0xFFE →
        ({ t with pc := p }.fetch).map BitVec.toNat =
          some (Spec.byteAfterBcd s x p.toNat * 256 + Spec.byteAfterBcd s x (p.toNat + 1))) ∧
    (∀ (x : Reg) (s : State), Memory.wf s.mem → s.i.toNat + x.val ≤ 0xFFF →
      ∃ t, exec (.storeRegs x) s = .next t ∧ ∀ p : Word, p.toNat ≤ 0xFFE →
        ({ t with pc := p }.fetch).map BitVec.toNat =
          some (Spec.byteAfterStore s x p.toNat * 256 + Spec.byteAfterStore s x (p.toNat + 1))) ∧
      ∀ (s : State) (a : Nat) (b : Byte) (p : Word), Memory.wf s.mem → a ≤ 0xFFF → p.toNat ≤ 0xFFE →
        ({ (transact (.load a b) s).2 with pc := p }.fetch).map BitVec.toNat =
          some (Spec.byteAfterLoad s a b p.toNat * 256 + Spec.byteAfterLoad s a b (p.toNat + 1))

/-- A memory has one form: two memories in it that read alike at every address are the same data. -/
def Obligations.MemoriesThatReadAlikeAreEqual : Prop :=
  ∀ m m' : Memory, Memory.wf m → Memory.wf m' → (∀ a, Memory.read m a = Memory.read m' a) → m = m'

/-! ### Display (44_display.md) -/

/-- R174: 00E0 turns every pixel unlit and changes nothing else. -/
def Obligations.ClearTurnsEveryPixelUnlit : Prop :=
  Spec.Encoded 0xFFFF 0x00E0 (fun _ => .cls) ∧
    ∀ s : State, ∃ t, exec .cls s = .next t ∧ t = { s with pix := t.pix, pc := Spec.pcPlus s 2 } ∧
      Grid.wf t.pix s.params.displayW s.params.displayH ∧ ∀ px py, t.pixel px py = false

/-- R175 with the engine of R171 and R172, for every size of grid: each pixel changes by the number of sprite bits that fall
on it, VF is the collision flag, nothing else changes; or the draw faults and changes nothing. -/
def Obligations.DrawXorsTheSpriteAndReportsCollision : Prop :=
  Spec.Encoded 0xF000 0xD000 (fun op => .drw (Spec.x op) (Spec.y op) (Spec.n op)) ∧
    ∀ (x y : Reg) (n : Nat) (s : State), s.Inv → n ≤ 15 →
      (n = 0 ∨ s.i.toNat + n ≤ 0x1000 → ∃ t, exec (.drw x y n) s = .next t ∧
        t = { s with pix := t.pix, v := t.v, pc := Spec.pcPlus s 2 } ∧
          (∀ r, r ≠ 15 → t.reg r = s.reg r) ∧
            (Spec.Collides s x y n → t.reg 15 = 1) ∧ (¬Spec.Collides s x y n → t.reg 15 = 0) ∧
              Grid.wf t.pix s.params.displayW s.params.displayH ∧
                ∀ px py, t.pixel px py = (s.pixel px py ^^ Spec.hits s x y n px py % 2 == 1)) ∧
        (n ≠ 0 ∧ 0x1000 < s.i.toNat + n → exec (.drw x y n) s =
          .next (Spec.faultedState s .memoryOutOfRange (u16 (0xD000 + x.val * 256 + y.val * 16 + n)) (max s.i.toNat 0x1000)))

/-- On a grid at least as large as the sprite, a draw toggles each pixel that the sprite covers exactly once: it negates the
covered pixels and leaves the others, and VF is 1 exactly when a covered pixel was lit (R171, R175). -/
def Obligations.LargeGridTogglesNoPixelTwice : Prop :=
  ∀ (x y : Reg) (n : Nat) (s : State), s.Inv → n ≤ 15 → 8 ≤ s.params.displayW → n ≤ s.params.displayH →
    n = 0 ∨ s.i.toNat + n ≤ 0x1000 →
      ∃ t, exec (.drw x y n) s = .next t ∧
        (∀ px py, Spec.Covers s x y n px py → t.pixel px py = !s.pixel px py) ∧
          (∀ px py, ¬Spec.Covers s x y n px py → t.pixel px py = s.pixel px py) ∧
            ((∃ px py, Spec.Covers s x y n px py ∧ s.pixel px py = true) → t.reg 15 = 1) ∧
              ((∀ px py, Spec.Covers s x y n px py → s.pixel px py = false) → t.reg 15 = 0) ∧
                ∀ px py, Spec.hits s x y n px py ≤ 1

/-- Drawing the same sprite twice at the same coordinates restores the display; on a blank display at least as large as the
sprite the first draw reports no collision, and the second one reports it exactly when the sprite has a bit.
(With x or y = 15 the second draw has another coordinate, the flag of the first: DrawXorsTheSpriteAndReportsCollision.) -/
def Obligations.DrawingTwiceRestoresTheDisplay : Prop :=
  ∀ (x y : Reg) (n : Nat) (s : State), s.Inv → n ≤ 15 → n = 0 ∨ s.i.toNat + n ≤ 0x1000 → x ≠ 15 → y ≠ 15 →
    ∃ t u, exec (.drw x y n) s = .next t ∧ exec (.drw x y n) t = .next u ∧ u.pix = s.pix ∧
      (8 ≤ s.params.displayW → n ≤ s.params.displayH → (∀ px py, s.pixel px py = false) →
        t.reg 15 = 0 ∧ (u.reg 15 = 1 ↔ ∃ r c, r < n ∧ c < 8 ∧ Spec.spriteBit s r c = true))

/-! ### Keypad and timers (45_keypad_timers.md) -/

/-- R193: Fx0A waits, changing nothing, while no key is pressed; else it loads the lowest pressed key's index. -/
def Obligations.KeyWaitLoadsTheLowestKey : Prop :=
  Spec.Encoded 0xF0FF 0xF00A (fun op => .ldKey (Spec.x op)) ∧
    ∀ (x : Reg) (s : State),
      (Spec.NoKey s → exec (.ldKey x) s = .next s ∧
        (s.faulted = false → s.nextInstr = some (.ldKey x) → transact .step s = (.stepped .waitingKey, s))) ∧
        ∀ k, k < 16 → s.isPressed k = true → (∀ j, j < k → s.isPressed j = false) →
          ∃ t, exec (.ldKey x) s = .next t ∧ Spec.RegsOnly s t ∧ ∀ r, t.reg r = if r = x then u8 k else s.reg r

/-- R194-R196: Fx07 reads the delay timer into Vx; Fx15 and Fx18 write the delay and the sound timer; nothing else changes. -/
def Obligations.TimerInstructionsMoveOneByte : Prop :=
  Spec.Encoded 0xF0FF 0xF007 (fun op => .ldFromDt (Spec.x op)) ∧ Spec.Encoded 0xF0FF 0xF015 (fun op => .ldDt (Spec.x op)) ∧
    Spec.Encoded 0xF0FF 0xF018 (fun op => .ldSt (Spec.x op)) ∧
      ∀ (x : Reg) (s : State),
        (∃ t, exec (.ldFromDt x) s = .next t ∧ Spec.RegsOnly s t ∧ ∀ r, t.reg r = if r = x then s.dt else s.reg r) ∧
          exec (.ldDt x) s = .next { s with dt := s.reg x, pc := Spec.pcPlus s 2 } ∧
            exec (.ldSt x) s = .next { s with st := s.reg x, pc := Spec.pcPlus s 2 }

/-! ### The host's transactions (60_exceptions.md, 70_reset_and_hazards.md) -/

/-- R217: a tick decrements both timers, floored at 0, in every state, and changes nothing else. -/
def Obligations.TickDecrementsBothTimers : Prop :=
  ∀ s : State, transact .tickTimers s =
    (.done, { s with dt := u8 (s.dt.toNat - 1), st := u8 (s.st.toNat - 1) })

/-- R190: press and release set one latch, last write wins, and change nothing else; an index above 15 is rejected. -/
def Obligations.PressAndReleaseSetOneLatch : Prop :=
  ∀ (s : State) (k : Nat),
    (k < 16 → ∃ t, transact (.press k) s = (.ok, t) ∧ t = { s with key := t.key } ∧
      ∀ j, t.isPressed j = if j = k then true else s.isPressed j) ∧
      (k < 16 → ∃ t, transact (.release k) s = (.ok, t) ∧ t = { s with key := t.key } ∧
        ∀ j, t.isPressed j = if j = k then false else s.isPressed j) ∧
        (15 < k → transact (.press k) s = (.rejected, s) ∧ transact (.release k) s = (.rejected, s))

/-- R215: a host error changes nothing and does not set the latch. -/
def Obligations.HostErrorsChangeNothing : Prop :=
  ∀ s : State,
    (∀ k, 15 < k → transact (.press k) s = (.rejected, s) ∧ transact (.release k) s = (.rejected, s)) ∧
      (∀ a b, 0xFFF < a → transact (.load a b) s = (.rejected, s)) ∧
        (s.faulted = false → transact .skipFaulted s = (.rejected, s)) ∧
          (s.faulted = true → transact .step s = (.stepped .refusedFaulted, s))

/-- The host's load writes one byte of memory, and the three reads report and change nothing (R222, R176, R218). -/
def Obligations.LoadWritesOneByteAndReadsChangeNothing : Prop :=
  ∀ s : State, Memory.wf s.mem →
    (∀ a b, a ≤ 0xFFF → ∃ t, transact (.load a b) s = (.ok, t) ∧ t = { s with mem := t.mem } ∧ Memory.wf t.mem ∧
      ∀ c, t.readByte c = if c = a then b else s.readByte c) ∧
      transact .readDisplay s = (.display s.pix, s) ∧ transact .readSound s = (.sound s.st, s) ∧
        transact .readFault s = (.faultStatus s.faulted s.faultRecord, s)

/-- What reset leaves, for every instance (R240). That the parameters stay the instance's is deduced from R36 (log 10). -/
def Obligations.ResetZeroesTheState : Prop :=
  ∀ s t : State, t = (transact .reset s).2 ∨ t = State.resetOf s.params 0 →
    (∀ r, t.reg r = 0) ∧ t.i = 0 ∧ t.pc = s.params.resetPc ∧ t.sp.val = 0 ∧ (∀ j, t.stackAt j = 0) ∧ t.dt = 0 ∧ t.st = 0 ∧
      (∀ a, t.readByte a = 0) ∧ Grid.wf t.pix s.params.displayW s.params.displayH ∧ (∀ px py, t.pixel px py = false) ∧
        (∀ k, t.isPressed k = false) ∧ t.faulted = false ∧
          t.faultRecord = { cause := .none, pc := 0, opcode := 0, addr := 0 } ∧ t.params = s.params

/-- The machine's reset state is that of the instance with the default parameters: `RESET_PC` 0x000, 64 x 32 pixels, no
font offset, `NO_BORROW`, `VX`, `I` unchanged by block moves (00_scope.md R6). -/
def Obligations.ResetStateHasTheDefaultParameters : Prop :=
  core.reset = State.resetOf State.reset.params 0 ∧
    State.reset.params = ⟨64, 32, 0x000, 0x000, .noBorrow, .vx, false⟩ ∧ State.reset.pc.toNat = 0

/-! ### The whole machine -/

/-- The invariant holds after reset, for every instance with a display of at least one pixel. -/
def Obligations.ResetSatisfiesTheInvariant : Prop :=
  State.reset.Inv ∧ ∀ (p : Params) (k : Nat), p.wf → (State.resetOf p k).Inv

/-- Every step keeps the invariant: memory stays in its one form and inside 0x000..0xFFF, the display keeps its size, a set
latch has a cause. -/
def Obligations.StepKeepsTheInvariant : Prop :=
  ∀ s t : State, s.Inv → step s = .next t → t.Inv

/-- Every transaction, and so every list of transactions in any interleaving, keeps the invariant and the parameters (that
no transaction writes a parameter: logs 1 and 10, from R36). -/
def Obligations.TransactionsKeepTheInvariant : Prop :=
  ∀ (ts : List Transaction) (s : State), s.Inv →
    (runTransactions ts s).Inv ∧ (runTransactions ts s).params = s.params

/-- With `PC` at most 0x10FE and every outstanding return address at most 0x1000, every step keeps both bounds (R98 names
0x10FE for Bnnn and 0x1002 for "every computed next PC"; the model takes the larger, log 13); an instance whose `RESET_PC` is in range starts with them. -/
def Obligations.StepKeepsPcBounds : Prop :=
  (∀ s t : State, s.PcInv → step s = .next t → t.PcInv) ∧
    ∀ (p : Params) (k : Nat), p.resetPc.toNat ≤ 0x10FE → (State.resetOf p k).PcInv

/-- Who writes what: each piece of state is changed by the instructions that the summary table of 10_state.md lists (the
registers by those of R23), and by no other; the keypad and the parameters by none; `PC` is the policy's next `PC` or, when
the instruction faults, stays; the fault latch and record change only in a fault entry. The count of draws is the model's
own field, and that Cxkk alone changes it is the model's choice (log 2). -/
def Obligations.EachPieceOfStateHasItsWriters : Prop :=
  ∀ (i : Instr) (s t : State), exec i s = .next t →
    (t.mem ≠ s.mem → ∃ x, i = .ldBcd x ∨ i = .storeRegs x) ∧
      (t.pix ≠ s.pix → i = .cls ∨ ∃ x y n, i = .drw x y n) ∧
        (t.stack ≠ s.stack → ∃ nnn, i = .call nnn) ∧
          (t.sp ≠ s.sp → i = .ret ∨ ∃ nnn, i = .call nnn) ∧
            (t.i ≠ s.i → (∃ nnn, i = .ldI nnn) ∨ (∃ x, i = .addI x ∨ i = .ldFont x) ∨
              s.params.loadstoreIncrementsI = true ∧ ∃ x, i = .storeRegs x ∨ i = .loadRegs x) ∧
              (t.dt ≠ s.dt → ∃ x, i = .ldDt x) ∧
                (t.st ≠ s.st → ∃ x, i = .ldSt x) ∧
                  (t.draws ≠ s.draws → ∃ x kk, i = .rnd x kk) ∧
                    t.key = s.key ∧ t.params = s.params ∧ (s.faulted = true → t.faulted = true) ∧
                      (∀ r, t.reg r ≠ s.reg r → Spec.writes i r = true) ∧
                        (t.pc = Spec.nextPc i s ∨ t.pc = s.pc ∧ t.faulted = true ∧ Spec.CanFault i) ∧
                          (t.faulted ≠ s.faulted ∨ t.faultRecord ≠ s.faultRecord →
                            Spec.CanFault i ∧ t = { s with faulted := true, faultRecord := t.faultRecord })

/-- An instruction changes no general register outside its "writes" column, and what it does depends on none outside
its "reads" column: in two states that agree on the registers it reads and on everything but registers, it answers two
states that again agree on everything but registers, and a register is the same in both or is the old one in both (R23). The
two states have the same count of draws, so for Cxkk this is said for the same random byte (log 2). -/
def Obligations.RegistersReadAndWrittenAreThoseOfTheTable : Prop :=
  ∀ (i : Instr) (s t : State), exec i s = .next t →
    (∀ r, Spec.writes i r = false → t.reg r = s.reg r) ∧
      ∀ s' : State, s' = { s with v := s'.v } → (∀ r, Spec.reads i s.params r = true → s'.reg r = s.reg r) →
        ∃ t', exec i s' = .next t' ∧ t' = { t with v := t'.v } ∧
          ∀ r, t'.reg r = t.reg r ∨ (t.reg r = s.reg r ∧ t'.reg r = s'.reg r)

/-- R38: no program observes the sound timer, the stack entries at or above `SP`, or the fault record: states that differ in
these alone step alike, return the same results, and differ in these alone again. The two states have the same count of
draws, so a Cxkk step is compared for the same random byte (log 2). -/
def Obligations.UnobservableStateStaysUnobservable : Prop :=
  ∀ s s' : State, Spec.SameToPrograms s s' →
    stepResult s' = stepResult s ∧ (step s = .refused .refusedFaulted → step s' = .refused .refusedFaulted) ∧
      ∀ t, step s = .next t → ∃ t', step s' = .next t' ∧ Spec.SameToPrograms t t'

/-- The zero slide: from `PC` 0x000 with 0x000..0x1FF all zero, k steps up to 256 move `PC` to 2k and change nothing else, in
a run in which the host issues nothing but the steps (R244: ticks and key transactions aside; log 12). -/
def Obligations.ZeroSlideReachesProgramBase : Prop :=
  ∀ (s : State) (k : Nat), s.faulted = false → s.pc.toNat = 0 → (∀ a, a < 0x200 → s.readByte a = 0) → k ≤ 256 →
    Host.Core.run core k s = .next { s with pc := u16 (2 * k) }

/-- A jump to itself, and an Fx0A with no key pressed, change nothing however often they are stepped, in a run in which the
host issues nothing but the steps: a tick would change a timer, a press would end the wait (R247, R249; log 12). -/
def Obligations.IdleStatesDoNotChange : Prop :=
  ∀ (s : State) (k : Nat), s.faulted = false →
    ((∃ nnn : Addr, s.nextInstr = some (.jp nnn) ∧ nnn.toNat = s.pc.toNat) ∨
      ((∃ x, s.nextInstr = some (.ldKey x)) ∧ Spec.NoKey s)) →
      Host.Core.run core k s = .next s

/-- A step that respects R246's list (nesting within the stack, accesses below 0x1000, key indices below 16, `PC` at most
0xFFE) is safe: it completes without a fault. -/
def Obligations.RespectfulStepIsSafe : Prop :=
  ∀ s : State, s.faulted = false → s.pc.toNat ≤ 0xFFE →
    (∀ i, s.nextInstr = some i →
      ((∃ nnn, i = .call nnn) → s.sp.val < 16) ∧ (i = .ret → 0 < s.sp.val) ∧
        (∀ k j, Spec.blockLength i = some k → j < k → s.i.toNat + j < 0x1000) ∧
          (∀ x, i = .skp x ∨ i = .sknp x → (s.reg x).toNat < 16)) →
      SafeStep s
end

