-- ==== Sys2Proof/Laws/Decode.lean ====
section
/-! SUPPORT. The fields of a word as arithmetic, the fields of an encoded word, and the masks of the opcode map. -/

namespace Sys2Proof

/-! ### A word as a number -/

theorem toNat_append_eq {m n : Nat} (x : BitVec m) (y : BitVec n) :
    (x ++ y).toNat = x.toNat * 2 ^ n + y.toNat := by
  rw [BitVec.toNat_append, ← Nat.shiftLeft_add_eq_or_of_lt y.isLt, Nat.shiftLeft_eq]

theorem fieldN1_val (op : Word) : (fieldN1 op).val = op.toNat / 4096 := by
  have := op.isLt
  simp [fieldN1, Nat.shiftRight_eq_div_pow]
  omega

theorem fieldX_val (op : Word) : (fieldX op).val = op.toNat / 256 % 16 := by
  simp [fieldX, Nat.shiftRight_eq_div_pow]

theorem fieldY_val (op : Word) : (fieldY op).val = op.toNat / 16 % 16 := by
  simp [fieldY, Nat.shiftRight_eq_div_pow]

theorem fieldN_val (op : Word) : (fieldN op).val = op.toNat % 16 := by
  simp [fieldN]

theorem fieldKk_toNat (op : Word) : (fieldKk op).toNat = op.toNat % 256 := by
  simp [fieldKk]

theorem fieldNnn_toNat (op : Word) : (fieldNnn op).toNat = op.toNat % 4096 := by
  simp [fieldNnn]

theorem highByte_toNat (op : Word) : (highByte op).toNat = op.toNat / 256 := by
  have := op.isLt
  simp [highByte, Nat.shiftRight_eq_div_pow]
  omega

theorem lowByte_toNat (op : Word) : (lowByte op).toNat = op.toNat % 256 := by
  simp [lowByte]

theorem wordOfBytes_toNat (hi lo : Byte) : (wordOfBytes hi lo).toNat = hi.toNat * 256 + lo.toNat :=
  toNat_append_eq hi lo

/-- A word is the two bytes it is stored as. -/
theorem wordOfBytes_highByte_lowByte (op : Word) : wordOfBytes (highByte op) (lowByte op) = op := by
  apply BitVec.eq_of_toNat_eq
  rw [wordOfBytes_toNat, highByte_toNat, lowByte_toNat]
  omega

/-! ### The three shapes of an encoded word -/

@[simp] theorem nibble_toNat (r : Fin 16) : (nibble r).toNat = r.val := rfl

theorem toNat_nnn (a : BitVec 4) (b : Addr) : BitVec.toNat (a ++ b : Word) = a.toNat * 4096 + b.toNat :=
  toNat_append_eq a b

theorem toNat_xkk (a b : BitVec 4) (k : Byte) :
    BitVec.toNat (a ++ b ++ k : Word) = a.toNat * 4096 + b.toNat * 256 + k.toNat := by
  rw [toNat_append_eq, toNat_append_eq]
  omega

theorem toNat_xyn (a b c d : BitVec 4) :
    BitVec.toNat (a ++ b ++ c ++ d : Word) = a.toNat * 4096 + b.toNat * 256 + c.toNat * 16 + d.toNat := by
  rw [toNat_append_eq, toNat_append_eq, toNat_append_eq]
  omega

@[simp] theorem fieldN1_nnn (a : BitVec 4) (b : Addr) : fieldN1 (a ++ b : Word) = a.toFin := by
  apply Fin.ext
  rw [fieldN1_val, toNat_nnn]
  have := b.isLt
  simp only [BitVec.val_toFin]
  omega

@[simp] theorem fieldNnn_nnn (a : BitVec 4) (b : Addr) : fieldNnn (a ++ b : Word) = b := by
  apply BitVec.eq_of_toNat_eq
  rw [fieldNnn_toNat, toNat_nnn]
  have := b.isLt
  omega

@[simp] theorem fieldN1_xkk (a b : BitVec 4) (k : Byte) : fieldN1 (a ++ b ++ k : Word) = a.toFin := by
  apply Fin.ext
  rw [fieldN1_val, toNat_xkk]
  have := b.isLt
  have := k.isLt
  simp only [BitVec.val_toFin]
  omega

@[simp] theorem fieldX_xkk (a : BitVec 4) (r : Reg) (k : Byte) : fieldX (a ++ nibble r ++ k : Word) = r := by
  apply Fin.ext
  rw [fieldX_val, toNat_xkk, nibble_toNat]
  have := r.isLt
  have := k.isLt
  omega

@[simp] theorem fieldKk_xkk (a b : BitVec 4) (k : Byte) : fieldKk (a ++ b ++ k : Word) = k := by
  apply BitVec.eq_of_toNat_eq
  rw [fieldKk_toNat, toNat_xkk]
  have := k.isLt
  omega

@[simp] theorem fieldN1_xyn (a b c d : BitVec 4) : fieldN1 (a ++ b ++ c ++ d : Word) = a.toFin := by
  apply Fin.ext
  rw [fieldN1_val, toNat_xyn]
  have := b.isLt
  have := c.isLt
  have := d.isLt
  simp only [BitVec.val_toFin]
  omega

@[simp] theorem fieldX_xyn (a c d : BitVec 4) (r : Reg) : fieldX (a ++ nibble r ++ c ++ d : Word) = r := by
  apply Fin.ext
  rw [fieldX_val, toNat_xyn, nibble_toNat]
  have := r.isLt
  have := c.isLt
  have := d.isLt
  omega

@[simp] theorem fieldY_xyn (a b d : BitVec 4) (r : Reg) : fieldY (a ++ b ++ nibble r ++ d : Word) = r := by
  apply Fin.ext
  rw [fieldY_val, toNat_xyn, nibble_toNat]
  have := r.isLt
  have := d.isLt
  omega

@[simp] theorem fieldN_xyn (a b c d : BitVec 4) : fieldN (a ++ b ++ c ++ d : Word) = d.toFin := by
  apply Fin.ext
  rw [fieldN_val, toNat_xyn]
  have := d.isLt
  simp only [BitVec.val_toFin]
  omega

/-! ### The masks of R73 -/

theorem toNat_and_F000 (op : Word) : (op &&& 0xF000#16).toNat = op.toNat / 4096 * 4096 := by
  have lt := op.isLt
  have h : op = (op.extractLsb' 12 4 ++ op.extractLsb' 0 12 : BitVec (4 + 12)) := by
    apply BitVec.eq_of_toNat_eq
    rw [toNat_append_eq]
    simp [Nat.shiftRight_eq_div_pow]
    omega
  have e : op &&& 0xF000#16 = (op.extractLsb' 12 4 ++ 0#12 : BitVec (4 + 12)) := by
    conv_lhs => rw [h, show (0xF000#16) = (0xF#4 ++ 0#12 : BitVec (4 + 12)) from rfl, BitVec.and_append]
    rw [show (0xF#4) = BitVec.allOnes 4 from rfl, BitVec.and_allOnes, BitVec.and_zero]
  rw [e, toNat_append_eq]
  simp [Nat.shiftRight_eq_div_pow]
  omega

theorem toNat_and_F00F (op : Word) : (op &&& 0xF00F#16).toNat = op.toNat / 4096 * 4096 + op.toNat % 16 := by
  have lt := op.isLt
  have h : op = (op.extractLsb' 12 4 ++ op.extractLsb' 4 8 ++ op.extractLsb' 0 4 : BitVec (4 + 8 + 4)) := by
    apply BitVec.eq_of_toNat_eq
    rw [toNat_append_eq, toNat_append_eq]
    simp [Nat.shiftRight_eq_div_pow]
    omega
  have e : op &&& 0xF00F#16 = (op.extractLsb' 12 4 ++ 0#8 ++ op.extractLsb' 0 4 : BitVec (4 + 8 + 4)) := by
    conv_lhs =>
      rw [h, show (0xF00F#16) = (0xF#4 ++ 0#8 ++ 0xF#4 : BitVec (4 + 8 + 4)) from rfl, BitVec.and_append,
        BitVec.and_append]
    rw [show (0xF#4) = BitVec.allOnes 4 from rfl, BitVec.and_allOnes, BitVec.and_zero, BitVec.and_allOnes]
  rw [e, toNat_append_eq, toNat_append_eq]
  simp [Nat.shiftRight_eq_div_pow]
  omega

theorem toNat_and_F0FF (op : Word) : (op &&& 0xF0FF#16).toNat = op.toNat / 4096 * 4096 + op.toNat % 256 := by
  have lt := op.isLt
  have h : op = (op.extractLsb' 12 4 ++ op.extractLsb' 8 4 ++ op.extractLsb' 0 8 : BitVec (4 + 4 + 8)) := by
    apply BitVec.eq_of_toNat_eq
    rw [toNat_append_eq, toNat_append_eq]
    simp [Nat.shiftRight_eq_div_pow]
    omega
  have e : op &&& 0xF0FF#16 = (op.extractLsb' 12 4 ++ 0#4 ++ op.extractLsb' 0 8 : BitVec (4 + 4 + 8)) := by
    conv_lhs =>
      rw [h, show (0xF0FF#16) = (0xF#4 ++ 0#4 ++ 0xFF#8 : BitVec (4 + 4 + 8)) from rfl, BitVec.and_append,
        BitVec.and_append]
    rw [show (0xF#4) = BitVec.allOnes 4 from rfl, BitVec.and_allOnes, BitVec.and_zero,
      show (0xFF#8) = BitVec.allOnes 8 from rfl, BitVec.and_allOnes]
  rw [e, toNat_append_eq, toNat_append_eq]
  simp [Nat.shiftRight_eq_div_pow]
  omega

theorem and_FFFF (op : Word) : op &&& 0xFFFF#16 = op := by
  rw [show (0xFFFF#16) = BitVec.allOnes 16 from rfl, BitVec.and_allOnes]

/-! ### The shapes of a word against the masks of their rows -/

theorem and_F000_nnn (a : BitVec 4) (b : Addr) : (a ++ b : Word) &&& 0xF000#16 = BitVec.ofNat 16 (a.toNat * 4096) := by
  apply BitVec.eq_of_toNat_eq
  rw [toNat_and_F000, toNat_nnn]
  have := a.isLt
  have := b.isLt
  simp
  omega

theorem and_F000_xkk (a b : BitVec 4) (k : Byte) : (a ++ b ++ k : Word) &&& 0xF000#16 = BitVec.ofNat 16 (a.toNat * 4096) := by
  apply BitVec.eq_of_toNat_eq
  rw [toNat_and_F000, toNat_xkk]
  have := a.isLt
  have := b.isLt
  have := k.isLt
  simp
  omega

theorem and_F000_xyn (a b c d : BitVec 4) : (a ++ b ++ c ++ d : Word) &&& 0xF000#16 = BitVec.ofNat 16 (a.toNat * 4096) := by
  apply BitVec.eq_of_toNat_eq
  rw [toNat_and_F000, toNat_xyn]
  have := a.isLt
  have := b.isLt
  have := c.isLt
  have := d.isLt
  simp
  omega

theorem and_F00F_xy (a b c d : BitVec 4) :
    (a ++ b ++ c ++ d : Word) &&& 0xF00F#16 = BitVec.ofNat 16 (a.toNat * 4096 + d.toNat) := by
  apply BitVec.eq_of_toNat_eq
  rw [toNat_and_F00F, toNat_xyn]
  have := a.isLt
  have := b.isLt
  have := c.isLt
  have := d.isLt
  simp
  omega

theorem and_F0FF_xLow (a b : BitVec 4) (k : Byte) :
    (a ++ b ++ k : Word) &&& 0xF0FF#16 = BitVec.ofNat 16 (a.toNat * 4096 + k.toNat) := by
  apply BitVec.eq_of_toNat_eq
  rw [toNat_and_F0FF, toNat_xkk]
  have := a.isLt
  have := b.isLt
  have := k.isLt
  simp
  omega

end Sys2Proof
end

