-- ==== Sys2Proof/Laws/Memory.lean ====
section
/-! SUPPORT. The laws of a memory in its one form: what a read after a write gives, and that writes keep the form. -/

namespace Sys2Proof.Machine

theorem Memory.wf_nil : Memory.wf [] := by simp [Memory.wf]

theorem Memory.wf_cons {c : Host.Cell} {m : Memory} :
    Memory.wf (c :: m) ↔ (∀ d ∈ m, c.1 < d.1) ∧ c.1 < Config.memSize ∧ c.2 ≠ 0#8 ∧ Memory.wf m := by
  simp only [Memory.wf, List.pairwise_cons, List.forall_mem_cons]
  tauto

theorem Memory.wf_tail {c : Host.Cell} {m : Memory} (h : Memory.wf (c :: m)) : Memory.wf m := (wf_cons.mp h).2.2.2

/-- An address below every listed one reads as 0. -/
theorem Memory.read_below {m : Memory} {a : Nat} (h : ∀ d ∈ m, a < d.1) : Memory.read m a = 0#8 := by
  induction m with
  | nil => rfl
  | cons c m ih =>
    have hc : c.1 ≠ a := Nat.ne_of_gt (h c (by simp))
    simp only [Memory.read, hc, if_false]
    exact ih fun d hd => h d (by simp [hd])

/-- An address outside the memory reads as 0. -/
theorem Memory.read_outside {m : Memory} {a : Nat} (h : Memory.wf m) (ha : Config.memSize ≤ a) :
    Memory.read m a = 0#8 := by
  induction m with
  | nil => rfl
  | cons c m ih =>
    have hc : c.1 ≠ a := Nat.ne_of_lt (Nat.lt_of_lt_of_le (wf_cons.mp h).2.1 ha)
    simp only [Memory.read, hc, if_false]
    exact ih (wf_tail h)

/-- Reading after a write: the written byte at its address, the old byte everywhere else. -/
theorem Memory.read_write {m : Memory} (h : Memory.wf m) (a : Nat) (v : Byte) (b : Nat) :
    Memory.read (Memory.write m a v) b = if b = a then v else Memory.read m b := by
  induction m with
  | nil =>
    by_cases hv : v = 0#8
    · simp [Memory.write, Memory.read, hv]
    · simp [Memory.write, Memory.read, hv, eq_comm (a := a)]
  | cons c m ih =>
    obtain ⟨k, u⟩ := c
    obtain ⟨hlt, -, -, hm⟩ := wf_cons.mp h
    have below : ∀ x, x ≤ k → Memory.read m x = 0#8 :=
      fun x hx => read_below fun d hd => Nat.lt_of_le_of_lt hx (hlt d hd)
    simp only [Memory.write]
    split
    · rename_i hak
      split
      · rename_i hv
        split
        · subst_vars
          simp [Memory.read, Nat.ne_of_gt hak, below _ hak.le]
        · rfl
      · simp [Memory.read, eq_comm (a := a)]
    · split
      · subst_vars
        split
        · split
          · subst_vars
            exact below _ le_rfl
          · rename_i hb
            simp [Memory.read, Ne.symm hb]
        · by_cases hb : b = k
          · simp [Memory.read, hb]
          · simp [Memory.read, hb, Ne.symm hb]
      · rename_i hk
        by_cases hb : b = a
        · subst hb
          simp [Memory.read, Ne.symm hk, ih hm]
        · simp [Memory.read, ih hm, hb]

/-- Every cell listed after a write is the written one or was listed before. -/
theorem Memory.mem_write {m : Memory} {a : Nat} {v : Byte} {d : Host.Cell} (h : d ∈ Memory.write m a v) :
    d = (a, v) ∨ d ∈ m := by
  induction m with
  | nil =>
    simp only [Memory.write] at h
    split at h <;> simp_all
  | cons c m ih =>
    obtain ⟨k, u⟩ := c
    simp only [Memory.write] at h
    split at h
    · split at h <;> simp_all
    · split at h
      · split at h
        · exact .inr (List.mem_cons_of_mem _ h)
        · rcases List.mem_cons.mp h with h | h <;> simp [h]
      · rcases List.mem_cons.mp h with h | h
        · simp [h]
        · rcases ih h with h | h <;> simp [h]

/-- A write inside the memory keeps the one form. -/
theorem Memory.wf_write {m : Memory} (h : Memory.wf m) {a : Nat} (ha : a < Config.memSize) (v : Byte) :
    Memory.wf (Memory.write m a v) := by
  induction m with
  | nil =>
    simp only [Memory.write]
    split
    · exact wf_nil
    · exact wf_cons.mpr ⟨by simp, ha, ‹_›, wf_nil⟩
  | cons c m ih =>
    obtain ⟨k, u⟩ := c
    obtain ⟨hlt, hk, hu, hm⟩ := wf_cons.mp h
    simp only [Memory.write]
    split
    · rename_i hak
      split
      · exact h
      · refine wf_cons.mpr ⟨?_, ha, ‹_›, h⟩
        intro d hd
        rcases List.mem_cons.mp hd with rfl | hd
        · exact hak
        · exact Nat.lt_trans hak (hlt d hd)
    · split
      · subst_vars
        split
        · exact hm
        · exact wf_cons.mpr ⟨hlt, ha, ‹_›, hm⟩
      · refine wf_cons.mpr ⟨?_, hk, hu, ih hm⟩
        intro d hd
        rcases mem_write hd with rfl | hd
        · simp only
          omega
        · exact hlt d hd

end Sys2Proof.Machine
end

