-- ==== Sys2Proof/Laws/State.lean ====
section
/-! SUPPORT. One lemma per field per update of the state, so that no later proof unfolds a record update. -/

namespace Sys2Proof.Machine

/-! ### `State.setReg` -/

@[simp] theorem State.setReg_v (s : State) (r : Reg) (b : Byte) : (s.setReg r b).v = s.v.set r b := rfl
@[simp] theorem State.setReg_i (s : State) (r : Reg) (b : Byte) : (s.setReg r b).i = s.i := rfl
@[simp] theorem State.setReg_pc (s : State) (r : Reg) (b : Byte) : (s.setReg r b).pc = s.pc := rfl
@[simp] theorem State.setReg_stack (s : State) (r : Reg) (b : Byte) : (s.setReg r b).stack = s.stack := rfl
@[simp] theorem State.setReg_sp (s : State) (r : Reg) (b : Byte) : (s.setReg r b).sp = s.sp := rfl
@[simp] theorem State.setReg_dt (s : State) (r : Reg) (b : Byte) : (s.setReg r b).dt = s.dt := rfl
@[simp] theorem State.setReg_st (s : State) (r : Reg) (b : Byte) : (s.setReg r b).st = s.st := rfl
@[simp] theorem State.setReg_mem (s : State) (r : Reg) (b : Byte) : (s.setReg r b).mem = s.mem := rfl
@[simp] theorem State.setReg_pix (s : State) (r : Reg) (b : Byte) : (s.setReg r b).pix = s.pix := rfl
@[simp] theorem State.setReg_key (s : State) (r : Reg) (b : Byte) : (s.setReg r b).key = s.key := rfl
@[simp] theorem State.setReg_faulted (s : State) (r : Reg) (b : Byte) : (s.setReg r b).faulted = s.faulted := rfl
@[simp] theorem State.setReg_faultRecord (s : State) (r : Reg) (b : Byte) : (s.setReg r b).faultRecord = s.faultRecord := rfl
@[simp] theorem State.setReg_params (s : State) (r : Reg) (b : Byte) : (s.setReg r b).params = s.params := rfl
@[simp] theorem State.setReg_draws (s : State) (r : Reg) (b : Byte) : (s.setReg r b).draws = s.draws := rfl

/-! ### `State.setRegAndFlag` -/

@[simp] theorem State.setRegAndFlag_v (s : State) (x : Reg) (b f : Byte) : (s.setRegAndFlag x b f).v = (s.v.set x b).set VF f := rfl
@[simp] theorem State.setRegAndFlag_i (s : State) (x : Reg) (b f : Byte) : (s.setRegAndFlag x b f).i = s.i := rfl
@[simp] theorem State.setRegAndFlag_pc (s : State) (x : Reg) (b f : Byte) : (s.setRegAndFlag x b f).pc = s.pc := rfl
@[simp] theorem State.setRegAndFlag_stack (s : State) (x : Reg) (b f : Byte) : (s.setRegAndFlag x b f).stack = s.stack := rfl
@[simp] theorem State.setRegAndFlag_sp (s : State) (x : Reg) (b f : Byte) : (s.setRegAndFlag x b f).sp = s.sp := rfl
@[simp] theorem State.setRegAndFlag_dt (s : State) (x : Reg) (b f : Byte) : (s.setRegAndFlag x b f).dt = s.dt := rfl
@[simp] theorem State.setRegAndFlag_st (s : State) (x : Reg) (b f : Byte) : (s.setRegAndFlag x b f).st = s.st := rfl
@[simp] theorem State.setRegAndFlag_mem (s : State) (x : Reg) (b f : Byte) : (s.setRegAndFlag x b f).mem = s.mem := rfl
@[simp] theorem State.setRegAndFlag_pix (s : State) (x : Reg) (b f : Byte) : (s.setRegAndFlag x b f).pix = s.pix := rfl
@[simp] theorem State.setRegAndFlag_key (s : State) (x : Reg) (b f : Byte) : (s.setRegAndFlag x b f).key = s.key := rfl
@[simp] theorem State.setRegAndFlag_faulted (s : State) (x : Reg) (b f : Byte) : (s.setRegAndFlag x b f).faulted = s.faulted := rfl
@[simp] theorem State.setRegAndFlag_faultRecord (s : State) (x : Reg) (b f : Byte) : (s.setRegAndFlag x b f).faultRecord = s.faultRecord := rfl
@[simp] theorem State.setRegAndFlag_params (s : State) (x : Reg) (b f : Byte) : (s.setRegAndFlag x b f).params = s.params := rfl
@[simp] theorem State.setRegAndFlag_draws (s : State) (x : Reg) (b f : Byte) : (s.setRegAndFlag x b f).draws = s.draws := rfl

/-! ### `State.advance` -/

@[simp] theorem State.advance_v (s : State) : (s.advance).v = s.v := rfl
@[simp] theorem State.advance_i (s : State) : (s.advance).i = s.i := rfl
@[simp] theorem State.advance_pc (s : State) : (s.advance).pc = s.pc + 2 := rfl
@[simp] theorem State.advance_stack (s : State) : (s.advance).stack = s.stack := rfl
@[simp] theorem State.advance_sp (s : State) : (s.advance).sp = s.sp := rfl
@[simp] theorem State.advance_dt (s : State) : (s.advance).dt = s.dt := rfl
@[simp] theorem State.advance_st (s : State) : (s.advance).st = s.st := rfl
@[simp] theorem State.advance_mem (s : State) : (s.advance).mem = s.mem := rfl
@[simp] theorem State.advance_pix (s : State) : (s.advance).pix = s.pix := rfl
@[simp] theorem State.advance_key (s : State) : (s.advance).key = s.key := rfl
@[simp] theorem State.advance_faulted (s : State) : (s.advance).faulted = s.faulted := rfl
@[simp] theorem State.advance_faultRecord (s : State) : (s.advance).faultRecord = s.faultRecord := rfl
@[simp] theorem State.advance_params (s : State) : (s.advance).params = s.params := rfl
@[simp] theorem State.advance_draws (s : State) : (s.advance).draws = s.draws := rfl

/-! ### `State.jump` -/

@[simp] theorem State.jump_v (s : State) (w : Word) : (s.jump w).v = s.v := rfl
@[simp] theorem State.jump_i (s : State) (w : Word) : (s.jump w).i = s.i := rfl
@[simp] theorem State.jump_pc (s : State) (w : Word) : (s.jump w).pc = w := rfl
@[simp] theorem State.jump_stack (s : State) (w : Word) : (s.jump w).stack = s.stack := rfl
@[simp] theorem State.jump_sp (s : State) (w : Word) : (s.jump w).sp = s.sp := rfl
@[simp] theorem State.jump_dt (s : State) (w : Word) : (s.jump w).dt = s.dt := rfl
@[simp] theorem State.jump_st (s : State) (w : Word) : (s.jump w).st = s.st := rfl
@[simp] theorem State.jump_mem (s : State) (w : Word) : (s.jump w).mem = s.mem := rfl
@[simp] theorem State.jump_pix (s : State) (w : Word) : (s.jump w).pix = s.pix := rfl
@[simp] theorem State.jump_key (s : State) (w : Word) : (s.jump w).key = s.key := rfl
@[simp] theorem State.jump_faulted (s : State) (w : Word) : (s.jump w).faulted = s.faulted := rfl
@[simp] theorem State.jump_faultRecord (s : State) (w : Word) : (s.jump w).faultRecord = s.faultRecord := rfl
@[simp] theorem State.jump_params (s : State) (w : Word) : (s.jump w).params = s.params := rfl
@[simp] theorem State.jump_draws (s : State) (w : Word) : (s.jump w).draws = s.draws := rfl

/-! ### `State.skipIf` -/

@[simp] theorem State.skipIf_v (s : State) (c : Bool) : (s.skipIf c).v = s.v := rfl
@[simp] theorem State.skipIf_i (s : State) (c : Bool) : (s.skipIf c).i = s.i := rfl
@[simp] theorem State.skipIf_pc (s : State) (c : Bool) : (s.skipIf c).pc = if c then s.pc + 4 else s.pc + 2 := rfl
@[simp] theorem State.skipIf_stack (s : State) (c : Bool) : (s.skipIf c).stack = s.stack := rfl
@[simp] theorem State.skipIf_sp (s : State) (c : Bool) : (s.skipIf c).sp = s.sp := rfl
@[simp] theorem State.skipIf_dt (s : State) (c : Bool) : (s.skipIf c).dt = s.dt := rfl
@[simp] theorem State.skipIf_st (s : State) (c : Bool) : (s.skipIf c).st = s.st := rfl
@[simp] theorem State.skipIf_mem (s : State) (c : Bool) : (s.skipIf c).mem = s.mem := rfl
@[simp] theorem State.skipIf_pix (s : State) (c : Bool) : (s.skipIf c).pix = s.pix := rfl
@[simp] theorem State.skipIf_key (s : State) (c : Bool) : (s.skipIf c).key = s.key := rfl
@[simp] theorem State.skipIf_faulted (s : State) (c : Bool) : (s.skipIf c).faulted = s.faulted := rfl
@[simp] theorem State.skipIf_faultRecord (s : State) (c : Bool) : (s.skipIf c).faultRecord = s.faultRecord := rfl
@[simp] theorem State.skipIf_params (s : State) (c : Bool) : (s.skipIf c).params = s.params := rfl
@[simp] theorem State.skipIf_draws (s : State) (c : Bool) : (s.skipIf c).draws = s.draws := rfl

/-! ### `State.setI` -/

@[simp] theorem State.setI_v (s : State) (w : Word) : (s.setI w).v = s.v := rfl
@[simp] theorem State.setI_i (s : State) (w : Word) : (s.setI w).i = w := rfl
@[simp] theorem State.setI_pc (s : State) (w : Word) : (s.setI w).pc = s.pc := rfl
@[simp] theorem State.setI_stack (s : State) (w : Word) : (s.setI w).stack = s.stack := rfl
@[simp] theorem State.setI_sp (s : State) (w : Word) : (s.setI w).sp = s.sp := rfl
@[simp] theorem State.setI_dt (s : State) (w : Word) : (s.setI w).dt = s.dt := rfl
@[simp] theorem State.setI_st (s : State) (w : Word) : (s.setI w).st = s.st := rfl
@[simp] theorem State.setI_mem (s : State) (w : Word) : (s.setI w).mem = s.mem := rfl
@[simp] theorem State.setI_pix (s : State) (w : Word) : (s.setI w).pix = s.pix := rfl
@[simp] theorem State.setI_key (s : State) (w : Word) : (s.setI w).key = s.key := rfl
@[simp] theorem State.setI_faulted (s : State) (w : Word) : (s.setI w).faulted = s.faulted := rfl
@[simp] theorem State.setI_faultRecord (s : State) (w : Word) : (s.setI w).faultRecord = s.faultRecord := rfl
@[simp] theorem State.setI_params (s : State) (w : Word) : (s.setI w).params = s.params := rfl
@[simp] theorem State.setI_draws (s : State) (w : Word) : (s.setI w).draws = s.draws := rfl

/-! ### `State.setDt` -/

@[simp] theorem State.setDt_v (s : State) (b : Byte) : (s.setDt b).v = s.v := rfl
@[simp] theorem State.setDt_i (s : State) (b : Byte) : (s.setDt b).i = s.i := rfl
@[simp] theorem State.setDt_pc (s : State) (b : Byte) : (s.setDt b).pc = s.pc := rfl
@[simp] theorem State.setDt_stack (s : State) (b : Byte) : (s.setDt b).stack = s.stack := rfl
@[simp] theorem State.setDt_sp (s : State) (b : Byte) : (s.setDt b).sp = s.sp := rfl
@[simp] theorem State.setDt_dt (s : State) (b : Byte) : (s.setDt b).dt = b := rfl
@[simp] theorem State.setDt_st (s : State) (b : Byte) : (s.setDt b).st = s.st := rfl
@[simp] theorem State.setDt_mem (s : State) (b : Byte) : (s.setDt b).mem = s.mem := rfl
@[simp] theorem State.setDt_pix (s : State) (b : Byte) : (s.setDt b).pix = s.pix := rfl
@[simp] theorem State.setDt_key (s : State) (b : Byte) : (s.setDt b).key = s.key := rfl
@[simp] theorem State.setDt_faulted (s : State) (b : Byte) : (s.setDt b).faulted = s.faulted := rfl
@[simp] theorem State.setDt_faultRecord (s : State) (b : Byte) : (s.setDt b).faultRecord = s.faultRecord := rfl
@[simp] theorem State.setDt_params (s : State) (b : Byte) : (s.setDt b).params = s.params := rfl
@[simp] theorem State.setDt_draws (s : State) (b : Byte) : (s.setDt b).draws = s.draws := rfl

/-! ### `State.setSt` -/

@[simp] theorem State.setSt_v (s : State) (b : Byte) : (s.setSt b).v = s.v := rfl
@[simp] theorem State.setSt_i (s : State) (b : Byte) : (s.setSt b).i = s.i := rfl
@[simp] theorem State.setSt_pc (s : State) (b : Byte) : (s.setSt b).pc = s.pc := rfl
@[simp] theorem State.setSt_stack (s : State) (b : Byte) : (s.setSt b).stack = s.stack := rfl
@[simp] theorem State.setSt_sp (s : State) (b : Byte) : (s.setSt b).sp = s.sp := rfl
@[simp] theorem State.setSt_dt (s : State) (b : Byte) : (s.setSt b).dt = s.dt := rfl
@[simp] theorem State.setSt_st (s : State) (b : Byte) : (s.setSt b).st = b := rfl
@[simp] theorem State.setSt_mem (s : State) (b : Byte) : (s.setSt b).mem = s.mem := rfl
@[simp] theorem State.setSt_pix (s : State) (b : Byte) : (s.setSt b).pix = s.pix := rfl
@[simp] theorem State.setSt_key (s : State) (b : Byte) : (s.setSt b).key = s.key := rfl
@[simp] theorem State.setSt_faulted (s : State) (b : Byte) : (s.setSt b).faulted = s.faulted := rfl
@[simp] theorem State.setSt_faultRecord (s : State) (b : Byte) : (s.setSt b).faultRecord = s.faultRecord := rfl
@[simp] theorem State.setSt_params (s : State) (b : Byte) : (s.setSt b).params = s.params := rfl
@[simp] theorem State.setSt_draws (s : State) (b : Byte) : (s.setSt b).draws = s.draws := rfl

/-! ### `State.setPix` -/

@[simp] theorem State.setPix_v (s : State) (g : Grid) : (s.setPix g).v = s.v := rfl
@[simp] theorem State.setPix_i (s : State) (g : Grid) : (s.setPix g).i = s.i := rfl
@[simp] theorem State.setPix_pc (s : State) (g : Grid) : (s.setPix g).pc = s.pc := rfl
@[simp] theorem State.setPix_stack (s : State) (g : Grid) : (s.setPix g).stack = s.stack := rfl
@[simp] theorem State.setPix_sp (s : State) (g : Grid) : (s.setPix g).sp = s.sp := rfl
@[simp] theorem State.setPix_dt (s : State) (g : Grid) : (s.setPix g).dt = s.dt := rfl
@[simp] theorem State.setPix_st (s : State) (g : Grid) : (s.setPix g).st = s.st := rfl
@[simp] theorem State.setPix_mem (s : State) (g : Grid) : (s.setPix g).mem = s.mem := rfl
@[simp] theorem State.setPix_pix (s : State) (g : Grid) : (s.setPix g).pix = g := rfl
@[simp] theorem State.setPix_key (s : State) (g : Grid) : (s.setPix g).key = s.key := rfl
@[simp] theorem State.setPix_faulted (s : State) (g : Grid) : (s.setPix g).faulted = s.faulted := rfl
@[simp] theorem State.setPix_faultRecord (s : State) (g : Grid) : (s.setPix g).faultRecord = s.faultRecord := rfl
@[simp] theorem State.setPix_params (s : State) (g : Grid) : (s.setPix g).params = s.params := rfl
@[simp] theorem State.setPix_draws (s : State) (g : Grid) : (s.setPix g).draws = s.draws := rfl

/-! ### `State.countDraw` -/

@[simp] theorem State.countDraw_v (s : State) : (s.countDraw).v = s.v := rfl
@[simp] theorem State.countDraw_i (s : State) : (s.countDraw).i = s.i := rfl
@[simp] theorem State.countDraw_pc (s : State) : (s.countDraw).pc = s.pc := rfl
@[simp] theorem State.countDraw_stack (s : State) : (s.countDraw).stack = s.stack := rfl
@[simp] theorem State.countDraw_sp (s : State) : (s.countDraw).sp = s.sp := rfl
@[simp] theorem State.countDraw_dt (s : State) : (s.countDraw).dt = s.dt := rfl
@[simp] theorem State.countDraw_st (s : State) : (s.countDraw).st = s.st := rfl
@[simp] theorem State.countDraw_mem (s : State) : (s.countDraw).mem = s.mem := rfl
@[simp] theorem State.countDraw_pix (s : State) : (s.countDraw).pix = s.pix := rfl
@[simp] theorem State.countDraw_key (s : State) : (s.countDraw).key = s.key := rfl
@[simp] theorem State.countDraw_faulted (s : State) : (s.countDraw).faulted = s.faulted := rfl
@[simp] theorem State.countDraw_faultRecord (s : State) : (s.countDraw).faultRecord = s.faultRecord := rfl
@[simp] theorem State.countDraw_params (s : State) : (s.countDraw).params = s.params := rfl
@[simp] theorem State.countDraw_draws (s : State) : (s.countDraw).draws = s.draws + 1 := rfl

/-! ### `State.push` -/

@[simp] theorem State.push_v (s : State) (w : Word) : (s.push w).v = s.v := rfl
@[simp] theorem State.push_i (s : State) (w : Word) : (s.push w).i = s.i := rfl
@[simp] theorem State.push_pc (s : State) (w : Word) : (s.push w).pc = s.pc := rfl
@[simp] theorem State.push_stack (s : State) (w : Word) : (s.push w).stack = s.stack.setIfInBounds s.sp.val w := rfl
@[simp] theorem State.push_sp (s : State) (w : Word) : (s.push w).sp = Fin.ofNat 17 (s.sp.val + 1) := rfl
@[simp] theorem State.push_dt (s : State) (w : Word) : (s.push w).dt = s.dt := rfl
@[simp] theorem State.push_st (s : State) (w : Word) : (s.push w).st = s.st := rfl
@[simp] theorem State.push_mem (s : State) (w : Word) : (s.push w).mem = s.mem := rfl
@[simp] theorem State.push_pix (s : State) (w : Word) : (s.push w).pix = s.pix := rfl
@[simp] theorem State.push_key (s : State) (w : Word) : (s.push w).key = s.key := rfl
@[simp] theorem State.push_faulted (s : State) (w : Word) : (s.push w).faulted = s.faulted := rfl
@[simp] theorem State.push_faultRecord (s : State) (w : Word) : (s.push w).faultRecord = s.faultRecord := rfl
@[simp] theorem State.push_params (s : State) (w : Word) : (s.push w).params = s.params := rfl
@[simp] theorem State.push_draws (s : State) (w : Word) : (s.push w).draws = s.draws := rfl

/-! ### `State.popToPc` -/

@[simp] theorem State.popToPc_v (s : State) : (s.popToPc).v = s.v := rfl
@[simp] theorem State.popToPc_i (s : State) : (s.popToPc).i = s.i := rfl
@[simp] theorem State.popToPc_pc (s : State) : (s.popToPc).pc = s.stackAt (s.sp.val - 1) := rfl
@[simp] theorem State.popToPc_stack (s : State) : (s.popToPc).stack = s.stack := rfl
@[simp] theorem State.popToPc_sp (s : State) : (s.popToPc).sp = Fin.ofNat 17 (s.sp.val - 1) := rfl
@[simp] theorem State.popToPc_dt (s : State) : (s.popToPc).dt = s.dt := rfl
@[simp] theorem State.popToPc_st (s : State) : (s.popToPc).st = s.st := rfl
@[simp] theorem State.popToPc_mem (s : State) : (s.popToPc).mem = s.mem := rfl
@[simp] theorem State.popToPc_pix (s : State) : (s.popToPc).pix = s.pix := rfl
@[simp] theorem State.popToPc_key (s : State) : (s.popToPc).key = s.key := rfl
@[simp] theorem State.popToPc_faulted (s : State) : (s.popToPc).faulted = s.faulted := rfl
@[simp] theorem State.popToPc_faultRecord (s : State) : (s.popToPc).faultRecord = s.faultRecord := rfl
@[simp] theorem State.popToPc_params (s : State) : (s.popToPc).params = s.params := rfl
@[simp] theorem State.popToPc_draws (s : State) : (s.popToPc).draws = s.draws := rfl

/-! ### `State.clearDisplay` -/

@[simp] theorem State.clearDisplay_v (s : State) : (s.clearDisplay).v = s.v := rfl
@[simp] theorem State.clearDisplay_i (s : State) : (s.clearDisplay).i = s.i := rfl
@[simp] theorem State.clearDisplay_pc (s : State) : (s.clearDisplay).pc = s.pc := rfl
@[simp] theorem State.clearDisplay_stack (s : State) : (s.clearDisplay).stack = s.stack := rfl
@[simp] theorem State.clearDisplay_sp (s : State) : (s.clearDisplay).sp = s.sp := rfl
@[simp] theorem State.clearDisplay_dt (s : State) : (s.clearDisplay).dt = s.dt := rfl
@[simp] theorem State.clearDisplay_st (s : State) : (s.clearDisplay).st = s.st := rfl
@[simp] theorem State.clearDisplay_mem (s : State) : (s.clearDisplay).mem = s.mem := rfl
@[simp] theorem State.clearDisplay_pix (s : State) : (s.clearDisplay).pix = Grid.unlit s.params.displayW s.params.displayH := rfl
@[simp] theorem State.clearDisplay_key (s : State) : (s.clearDisplay).key = s.key := rfl
@[simp] theorem State.clearDisplay_faulted (s : State) : (s.clearDisplay).faulted = s.faulted := rfl
@[simp] theorem State.clearDisplay_faultRecord (s : State) : (s.clearDisplay).faultRecord = s.faultRecord := rfl
@[simp] theorem State.clearDisplay_params (s : State) : (s.clearDisplay).params = s.params := rfl
@[simp] theorem State.clearDisplay_draws (s : State) : (s.clearDisplay).draws = s.draws := rfl

/-! ### `State.setKey` -/

@[simp] theorem State.setKey_v (s : State) (k : Nat) (b : Bool) : (s.setKey k b).v = s.v := rfl
@[simp] theorem State.setKey_i (s : State) (k : Nat) (b : Bool) : (s.setKey k b).i = s.i := rfl
@[simp] theorem State.setKey_pc (s : State) (k : Nat) (b : Bool) : (s.setKey k b).pc = s.pc := rfl
@[simp] theorem State.setKey_stack (s : State) (k : Nat) (b : Bool) : (s.setKey k b).stack = s.stack := rfl
@[simp] theorem State.setKey_sp (s : State) (k : Nat) (b : Bool) : (s.setKey k b).sp = s.sp := rfl
@[simp] theorem State.setKey_dt (s : State) (k : Nat) (b : Bool) : (s.setKey k b).dt = s.dt := rfl
@[simp] theorem State.setKey_st (s : State) (k : Nat) (b : Bool) : (s.setKey k b).st = s.st := rfl
@[simp] theorem State.setKey_mem (s : State) (k : Nat) (b : Bool) : (s.setKey k b).mem = s.mem := rfl
@[simp] theorem State.setKey_pix (s : State) (k : Nat) (b : Bool) : (s.setKey k b).pix = s.pix := rfl
@[simp] theorem State.setKey_key (s : State) (k : Nat) (b : Bool) : (s.setKey k b).key = s.key.setIfInBounds k b := rfl
@[simp] theorem State.setKey_faulted (s : State) (k : Nat) (b : Bool) : (s.setKey k b).faulted = s.faulted := rfl
@[simp] theorem State.setKey_faultRecord (s : State) (k : Nat) (b : Bool) : (s.setKey k b).faultRecord = s.faultRecord := rfl
@[simp] theorem State.setKey_params (s : State) (k : Nat) (b : Bool) : (s.setKey k b).params = s.params := rfl
@[simp] theorem State.setKey_draws (s : State) (k : Nat) (b : Bool) : (s.setKey k b).draws = s.draws := rfl

/-! ### `State.enterFault` -/

@[simp] theorem State.enterFault_v (s : State) (c : FaultCause) (op : Word) (a : Nat) : (s.enterFault c op a).v = s.v := rfl
@[simp] theorem State.enterFault_i (s : State) (c : FaultCause) (op : Word) (a : Nat) : (s.enterFault c op a).i = s.i := rfl
@[simp] theorem State.enterFault_pc (s : State) (c : FaultCause) (op : Word) (a : Nat) : (s.enterFault c op a).pc = s.pc := rfl
@[simp] theorem State.enterFault_stack (s : State) (c : FaultCause) (op : Word) (a : Nat) : (s.enterFault c op a).stack = s.stack := rfl
@[simp] theorem State.enterFault_sp (s : State) (c : FaultCause) (op : Word) (a : Nat) : (s.enterFault c op a).sp = s.sp := rfl
@[simp] theorem State.enterFault_dt (s : State) (c : FaultCause) (op : Word) (a : Nat) : (s.enterFault c op a).dt = s.dt := rfl
@[simp] theorem State.enterFault_st (s : State) (c : FaultCause) (op : Word) (a : Nat) : (s.enterFault c op a).st = s.st := rfl
@[simp] theorem State.enterFault_mem (s : State) (c : FaultCause) (op : Word) (a : Nat) : (s.enterFault c op a).mem = s.mem := rfl
@[simp] theorem State.enterFault_pix (s : State) (c : FaultCause) (op : Word) (a : Nat) : (s.enterFault c op a).pix = s.pix := rfl
@[simp] theorem State.enterFault_key (s : State) (c : FaultCause) (op : Word) (a : Nat) : (s.enterFault c op a).key = s.key := rfl
@[simp] theorem State.enterFault_faulted (s : State) (c : FaultCause) (op : Word) (a : Nat) : (s.enterFault c op a).faulted = true := rfl
@[simp] theorem State.enterFault_faultRecord (s : State) (c : FaultCause) (op : Word) (a : Nat) : (s.enterFault c op a).faultRecord = { cause := c, pc := s.pc, opcode := op, addr := a } := rfl
@[simp] theorem State.enterFault_params (s : State) (c : FaultCause) (op : Word) (a : Nat) : (s.enterFault c op a).params = s.params := rfl
@[simp] theorem State.enterFault_draws (s : State) (c : FaultCause) (op : Word) (a : Nat) : (s.enterFault c op a).draws = s.draws := rfl

/-! ### `State.leaveFault` -/

@[simp] theorem State.leaveFault_v (s : State) : (s.leaveFault).v = s.v := rfl
@[simp] theorem State.leaveFault_i (s : State) : (s.leaveFault).i = s.i := rfl
@[simp] theorem State.leaveFault_pc (s : State) : (s.leaveFault).pc = s.pc + 2 := rfl
@[simp] theorem State.leaveFault_stack (s : State) : (s.leaveFault).stack = s.stack := rfl
@[simp] theorem State.leaveFault_sp (s : State) : (s.leaveFault).sp = s.sp := rfl
@[simp] theorem State.leaveFault_dt (s : State) : (s.leaveFault).dt = s.dt := rfl
@[simp] theorem State.leaveFault_st (s : State) : (s.leaveFault).st = s.st := rfl
@[simp] theorem State.leaveFault_mem (s : State) : (s.leaveFault).mem = s.mem := rfl
@[simp] theorem State.leaveFault_pix (s : State) : (s.leaveFault).pix = s.pix := rfl
@[simp] theorem State.leaveFault_key (s : State) : (s.leaveFault).key = s.key := rfl
@[simp] theorem State.leaveFault_faulted (s : State) : (s.leaveFault).faulted = false := rfl
@[simp] theorem State.leaveFault_faultRecord (s : State) : (s.leaveFault).faultRecord = s.faultRecord := rfl
@[simp] theorem State.leaveFault_params (s : State) : (s.leaveFault).params = s.params := rfl
@[simp] theorem State.leaveFault_draws (s : State) : (s.leaveFault).draws = s.draws := rfl

/-! ### `State.storeByte` -/

@[simp] theorem State.storeByte_v (s : State) (a : Nat) (b : Byte) : (s.storeByte a b).v = s.v := by unfold State.storeByte; split <;> rfl
@[simp] theorem State.storeByte_i (s : State) (a : Nat) (b : Byte) : (s.storeByte a b).i = s.i := by unfold State.storeByte; split <;> rfl
@[simp] theorem State.storeByte_pc (s : State) (a : Nat) (b : Byte) : (s.storeByte a b).pc = s.pc := by unfold State.storeByte; split <;> rfl
@[simp] theorem State.storeByte_stack (s : State) (a : Nat) (b : Byte) : (s.storeByte a b).stack = s.stack := by unfold State.storeByte; split <;> rfl
@[simp] theorem State.storeByte_sp (s : State) (a : Nat) (b : Byte) : (s.storeByte a b).sp = s.sp := by unfold State.storeByte; split <;> rfl
@[simp] theorem State.storeByte_dt (s : State) (a : Nat) (b : Byte) : (s.storeByte a b).dt = s.dt := by unfold State.storeByte; split <;> rfl
@[simp] theorem State.storeByte_st (s : State) (a : Nat) (b : Byte) : (s.storeByte a b).st = s.st := by unfold State.storeByte; split <;> rfl
@[simp] theorem State.storeByte_pix (s : State) (a : Nat) (b : Byte) : (s.storeByte a b).pix = s.pix := by unfold State.storeByte; split <;> rfl
@[simp] theorem State.storeByte_key (s : State) (a : Nat) (b : Byte) : (s.storeByte a b).key = s.key := by unfold State.storeByte; split <;> rfl
@[simp] theorem State.storeByte_faulted (s : State) (a : Nat) (b : Byte) : (s.storeByte a b).faulted = s.faulted := by unfold State.storeByte; split <;> rfl
@[simp] theorem State.storeByte_faultRecord (s : State) (a : Nat) (b : Byte) : (s.storeByte a b).faultRecord = s.faultRecord := by unfold State.storeByte; split <;> rfl
@[simp] theorem State.storeByte_params (s : State) (a : Nat) (b : Byte) : (s.storeByte a b).params = s.params := by unfold State.storeByte; split <;> rfl
@[simp] theorem State.storeByte_draws (s : State) (a : Nat) (b : Byte) : (s.storeByte a b).draws = s.draws := by unfold State.storeByte; split <;> rfl

/-! ### `State.afterBlock` -/

@[simp] theorem State.afterBlock_v (s : State) (x : Reg) : (s.afterBlock x).v = s.v := by unfold State.afterBlock; split <;> rfl
@[simp] theorem State.afterBlock_pc (s : State) (x : Reg) : (s.afterBlock x).pc = s.pc := by unfold State.afterBlock; split <;> rfl
@[simp] theorem State.afterBlock_stack (s : State) (x : Reg) : (s.afterBlock x).stack = s.stack := by unfold State.afterBlock; split <;> rfl
@[simp] theorem State.afterBlock_sp (s : State) (x : Reg) : (s.afterBlock x).sp = s.sp := by unfold State.afterBlock; split <;> rfl
@[simp] theorem State.afterBlock_dt (s : State) (x : Reg) : (s.afterBlock x).dt = s.dt := by unfold State.afterBlock; split <;> rfl
@[simp] theorem State.afterBlock_st (s : State) (x : Reg) : (s.afterBlock x).st = s.st := by unfold State.afterBlock; split <;> rfl
@[simp] theorem State.afterBlock_mem (s : State) (x : Reg) : (s.afterBlock x).mem = s.mem := by unfold State.afterBlock; split <;> rfl
@[simp] theorem State.afterBlock_pix (s : State) (x : Reg) : (s.afterBlock x).pix = s.pix := by unfold State.afterBlock; split <;> rfl
@[simp] theorem State.afterBlock_key (s : State) (x : Reg) : (s.afterBlock x).key = s.key := by unfold State.afterBlock; split <;> rfl
@[simp] theorem State.afterBlock_faulted (s : State) (x : Reg) : (s.afterBlock x).faulted = s.faulted := by unfold State.afterBlock; split <;> rfl
@[simp] theorem State.afterBlock_faultRecord (s : State) (x : Reg) : (s.afterBlock x).faultRecord = s.faultRecord := by unfold State.afterBlock; split <;> rfl
@[simp] theorem State.afterBlock_params (s : State) (x : Reg) : (s.afterBlock x).params = s.params := by unfold State.afterBlock; split <;> rfl
@[simp] theorem State.afterBlock_draws (s : State) (x : Reg) : (s.afterBlock x).draws = s.draws := by unfold State.afterBlock; split <;> rfl

end Sys2Proof.Machine
end

