-- ==== Sys2Proof/Laws/Ops.lean ====
section
/-! SUPPORT. What each shared operation does, said once: registers, memory accesses, block moves, the range checks, the
return stack, the keypad and the grid. -/

namespace Sys2Proof.Machine

/-! ### Registers -/

@[simp] theorem State.reg_setReg (s : State) (r q : Reg) (b : Byte) :
    (s.setReg r b).reg q = if q = r then b else s.reg q := by
  simp only [State.reg, State.setReg, Fin.getElem_fin, Vector.getElem_set, Fin.ext_iff, eq_comm]

@[simp] theorem State.reg_setRegAndFlag (s : State) (x q : Reg) (b f : Byte) :
    (s.setRegAndFlag x b f).reg q = if q = VF then f else if q = x then b else s.reg q := by
  simp only [State.setRegAndFlag, State.reg_setReg]

/-- The registers of a state are those of any state with the same file. -/
theorem State.reg_eq_of_v_eq {s t : State} (h : s.v = t.v) (r : Reg) : s.reg r = t.reg r := by
  simp only [State.reg, h]

@[simp] theorem State.reg_advance (s : State) (r : Reg) : s.advance.reg r = s.reg r := rfl

@[simp] theorem State.reg_countDraw (s : State) (r : Reg) : s.countDraw.reg r = s.reg r := rfl

@[simp] theorem State.reg_setPix (s : State) (g : Grid) (r : Reg) : (s.setPix g).reg r = s.reg r := rfl

@[simp] theorem State.reg_storeByte (s : State) (a : Nat) (b : Byte) (r : Reg) :
    (s.storeByte a b).reg r = s.reg r := State.reg_eq_of_v_eq (by simp) r

@[simp] theorem State.reg_afterBlock (s : State) (x r : Reg) : (s.afterBlock x).reg r = s.reg r :=
  State.reg_eq_of_v_eq (by simp) r

theorem mem_allRegs (r : Reg) : r ∈ allRegs := by
  revert r
  decide

theorem mem_regsUpTo {x r : Reg} : r ∈ regsUpTo x ↔ r ≤ x := by
  simp [regsUpTo, mem_allRegs]

theorem nodup_regsUpTo (x : Reg) : (regsUpTo x).Nodup := by
  revert x
  decide

/-! ### Memory accesses -/

/-- A byte read after a store inside the memory. -/
theorem State.readByte_storeByte {s : State} (h : Memory.wf s.mem) {a : Nat} (ha : a < Config.memSize) (v : Byte)
    (b : Nat) : (s.storeByte a v).readByte b = if b = a then v else s.readByte b := by
  simp only [State.readByte, State.storeByte, ha, if_true]
  exact Memory.read_write h a v b

/-- Every store keeps the memory's one form. -/
theorem State.wf_storeByte {s : State} (h : Memory.wf s.mem) (a : Nat) (v : Byte) : Memory.wf (s.storeByte a v).mem := by
  unfold State.storeByte
  split
  · exact Memory.wf_write h ‹_› v
  · exact h

/-- A store changes the memory and nothing else. -/
theorem State.storeByte_eq (s : State) (a : Nat) (v : Byte) :
    s.storeByte a v = { s with mem := (s.storeByte a v).mem } := by
  unfold State.storeByte
  split <;> rfl

/-! ### Block moves -/

/-- Storing registers one after another: each register's byte at its address, every other byte as before; the registers,
and everything but the memory, unchanged. -/
theorem foldl_storeByte (base : Nat) (l : List Reg) (hl : l.Nodup) (s : State) (h : Memory.wf s.mem)
    (hb : ∀ j ∈ l, base + j.val < Config.memSize) :
    let t := l.foldl (fun t j => t.storeByte (base + j.val) (t.reg j)) s
    t = { s with mem := t.mem } ∧ Memory.wf t.mem ∧ (∀ j ∈ l, t.readByte (base + j.val) = s.reg j) ∧
      ∀ a, (∀ j ∈ l, a ≠ base + j.val) → t.readByte a = s.readByte a := by
  induction l generalizing s with
  | nil => exact ⟨rfl, h, by simp, fun _ _ => rfl⟩
  | cons k l ih =>
    obtain ⟨hk, hl⟩ := List.nodup_cons.mp hl
    have hkb := hb k (by simp)
    obtain ⟨e, w, r, f⟩ := ih hl (s.storeByte (base + k.val) (s.reg k)) (State.wf_storeByte h _ _)
      fun j hj => hb j (by simp [hj])
    refine ⟨?_, w, ?_, ?_⟩
    · rw [List.foldl_cons, e, State.storeByte_eq s]
    · intro j hj
      rcases List.mem_cons.mp hj with rfl | hj
      · rw [List.foldl_cons, f _ fun i hi => by
          have : j ≠ i := fun e => hk (e ▸ hi)
          have := Fin.val_ne_of_ne this
          omega, State.readByte_storeByte h hkb]
        simp
      · rw [List.foldl_cons, r j hj, State.reg_storeByte]
    · intro a ha
      rw [List.foldl_cons, f a fun j hj => ha j (by simp [hj]), State.readByte_storeByte h hkb]
      simp [ha k (by simp)]

/-- A block of stores, wherever it lies, changes nothing but the memory. -/
theorem State.storeBlock_eq (s : State) (base : Nat) (x : Reg) :
    s.storeBlock base x = { s with mem := (s.storeBlock base x).mem } := by
  have aux : ∀ (l : List Reg) (s : State),
      l.foldl (fun t j => t.storeByte (base + j.val) (t.reg j)) s =
        { s with mem := (l.foldl (fun t j => t.storeByte (base + j.val) (t.reg j)) s).mem } := by
    intro l
    induction l with
    | nil => intro s; rfl
    | cons k l ih =>
      intro s
      rw [List.foldl_cons, ih, State.storeByte_eq s]
  exact aux _ s

/-- Fx55's block move: V0..Vx at `base`, every other byte as before, nothing but the memory changed (43_index_memory.md R154). -/
theorem State.storeBlock_spec {s : State} (h : Memory.wf s.mem) {base : Nat} {x : Reg} (hb : base + x.val < Config.memSize) :
    s.storeBlock base x = { s with mem := (s.storeBlock base x).mem } ∧ Memory.wf (s.storeBlock base x).mem ∧
      (∀ j, j ≤ x → (s.storeBlock base x).readByte (base + j.val) = s.reg j) ∧
      ∀ a, (a < base ∨ base + x.val < a) → (s.storeBlock base x).readByte a = s.readByte a := by
  obtain ⟨e, w, r, f⟩ := foldl_storeByte base (regsUpTo x) (nodup_regsUpTo x) s h fun j hj => by
    have : j.val ≤ x.val := mem_regsUpTo.mp hj
    omega
  refine ⟨e, w, fun j hj => r j (mem_regsUpTo.mpr hj), fun a ha => f a fun j hj => ?_⟩
  have : j.val ≤ x.val := mem_regsUpTo.mp hj
  omega

/-- A block of stores, wherever it lies, keeps the memory's one form. -/
theorem State.wf_storeBlock {s : State} (h : Memory.wf s.mem) (base : Nat) (x : Reg) :
    Memory.wf (s.storeBlock base x).mem := by
  have aux : ∀ (l : List Reg) (s : State), Memory.wf s.mem →
      Memory.wf (l.foldl (fun t j => t.storeByte (base + j.val) (t.reg j)) s).mem := by
    intro l
    induction l with
    | nil => exact fun _ h => h
    | cons k l ih => exact fun s h => ih _ (State.wf_storeByte h _ _)
  exact aux _ s h

/-- Loading registers one after another: nothing but the register file changes. -/
theorem foldl_setReg (base : Nat) (l : List Reg) (s : State) :
    let t := l.foldl (fun t j => t.setReg j (t.readByte (base + j.val))) s
    t = { s with v := t.v } ∧ ∀ r, t.reg r = if r ∈ l then s.readByte (base + r.val) else s.reg r := by
  induction l generalizing s with
  | nil => exact ⟨rfl, by simp⟩
  | cons k l ih =>
    obtain ⟨e, r⟩ := ih (s.setReg k (s.readByte (base + k.val)))
    refine ⟨?_, fun q => ?_⟩
    · rw [List.foldl_cons, e]
      rfl
    · rw [List.foldl_cons, r q]
      by_cases hq : q ∈ l
      · simp [hq, State.readByte]
      · by_cases hk : q = k
        · subst hk
          simp [hq]
        · simp [hq, hk]

/-- Fx65's block move: V0..Vx from `base`, every other register and everything else as before (43_index_memory.md R155). -/
theorem State.loadBlock_spec (s : State) (base : Nat) (x : Reg) :
    s.loadBlock base x = { s with v := (s.loadBlock base x).v } ∧
      ∀ r, (s.loadBlock base x).reg r = if r ≤ x then s.readByte (base + r.val) else s.reg r := by
  obtain ⟨e, r⟩ := foldl_setReg base (regsUpTo x) s
  refine ⟨e, fun q => ?_⟩
  simp only [State.loadBlock, r q, mem_regsUpTo]

/-! ### Range checks -/

/-- The lowest address of a block that is outside the memory, in closed form (R156). -/
theorem firstOutOfRange_eq (base k : Nat) : firstOutOfRange base k =
    if k = 0 then none else if 0xFFF < base then some base else if 0x1000 < base + k then some 0x1000 else none := by
  simp only [firstOutOfRange, addresses, List.find?_map]
  split
  · simp [*]
  split
  · rw [List.find?_range_eq_some (i := 0) |>.mpr]
    · rfl
    · simp
      omega
  split
  · rw [List.find?_range_eq_some (i := 0x1000 - base) |>.mpr]
    · simp
      omega
    · simp
      exact ⟨by omega, by omega, fun j hj => by omega⟩
  · rw [List.find?_range_eq_none.mpr]
    · rfl
    · simp
      omega

/-- A block is inside the memory when it is empty or its last address is. -/
theorem firstOutOfRange_eq_none (base k : Nat) : firstOutOfRange base k = none ↔ k = 0 ∨ base + k ≤ 0x1000 := by
  rw [firstOutOfRange_eq]
  split_ifs <;> simp <;> omega

/-- With every address in range the checked instruction completes. -/
theorem checkBlock_of_le {op : Word} {k : Nat} {s body : State} (h : k = 0 ∨ s.i.toNat + k ≤ 0x1000) :
    checkBlock op k s body = .next body := by
  simp only [checkBlock, (firstOutOfRange_eq_none _ _).mpr h]

/-- All that a checked block access can answer: its body, or the memory fault. -/
theorem checkBlock_cases {op : Word} {k : Nat} {s body t : State} (h : checkBlock op k s body = .next t) :
    (t = body ∧ (k = 0 ∨ s.i.toNat + k ≤ 0x1000)) ∨
      ∃ a, firstOutOfRange s.i.toNat k = some a ∧ t = s.enterFault .memoryOutOfRange op a := by
  unfold checkBlock at h
  split at h
  · rename_i a ha
    simp only [raiseFault, Host.Outcome.next.injEq] at h
    exact .inr ⟨a, ha, h.symm⟩
  · rename_i ha
    simp only [Host.Outcome.next.injEq] at h
    exact .inl ⟨h.symm, (firstOutOfRange_eq_none _ _).mp ha⟩

/-- All that a checked key access can answer: its body, or the key fault. -/
theorem checkKey_cases {op : Word} {k : Nat} {s body t : State} (h : checkKey op k s body = .next t) :
    (t = body ∧ k ≤ 15) ∨ (15 < k ∧ t = s.enterFault .keyOutOfRange op k) := by
  unfold checkKey at h
  split at h <;> simp only [raiseFault, Host.Outcome.next.injEq] at h
  · exact .inr ⟨‹_›, h.symm⟩
  · exact .inl ⟨h.symm, by omega⟩

/-! ### Return stack -/

theorem sp_le (s : State) : s.sp.val ≤ 16 := Nat.le_of_lt_succ s.sp.isLt

theorem sp_lt_of_ne {s : State} (h : s.sp ≠ 16) : s.sp.val < 16 := by
  have : s.sp.val ≠ 16 := fun e => h (Fin.ext e)
  have := sp_le s
  omega

theorem sp_pos_of_ne {s : State} (h : s.sp ≠ 0) : 0 < s.sp.val :=
  Nat.pos_of_ne_zero fun e => h (Fin.ext e)

theorem State.sp_push_val {s : State} (h : s.sp ≠ 16) (w : Word) : (s.push w).sp.val = s.sp.val + 1 := by
  have := sp_lt_of_ne h
  simp
  omega

theorem State.sp_popToPc_val (s : State) : s.popToPc.sp.val = s.sp.val - 1 := by
  have := sp_le s
  simp
  omega

/-- The pushed entry, and every other entry as before. -/
theorem State.stackAt_push {s : State} (h : s.sp ≠ 16) (w : Word) (j : Nat) :
    (s.push w).stackAt j = if j = s.sp.val then w else s.stackAt j := by
  have := sp_lt_of_ne h
  simp only [State.stackAt, State.push_stack, Vector.getElem?_setIfInBounds]
  by_cases hj : j = s.sp.val
  · simp [hj, this]
  · simp [hj, Ne.symm hj]

/-! ### Keypad -/

theorem State.isPressed_setKey (s : State) {k : Nat} (hk : k < Config.numKeys) (b : Bool) (j : Nat) :
    (s.setKey k b).isPressed j = if j = k then b else s.isPressed j := by
  simp only [State.isPressed, State.setKey_key, Vector.getElem?_setIfInBounds]
  by_cases hj : j = k
  · simp [hj, hk]
  · simp [hj, Ne.symm hj]

/-- No key is pressed exactly when there is no lowest pressed key. -/
theorem State.lowestKey_eq_none (s : State) : s.lowestKey = none ↔ ∀ k : Reg, s.isPressed k.val = false := by
  simp [State.lowestKey, mem_allRegs]

theorem pairwise_allRegs : allRegs.Pairwise (· < ·) := by decide

/-- In a rising list the first element that satisfies `p` is the least one. -/
theorem find?_eq_some_of_pairwise_lt {l : List Reg} (hl : l.Pairwise (· < ·)) (p : Reg → Bool) (k : Reg) :
    l.find? p = some k ↔ k ∈ l ∧ p k = true ∧ ∀ j ∈ l, j < k → p j = false := by
  induction l with
  | nil => simp
  | cons a l ih =>
    obtain ⟨ha, hl⟩ := List.pairwise_cons.mp hl
    by_cases hp : p a = true
    · rw [List.find?_cons_of_pos hp]
      constructor
      · rintro ⟨⟩
        refine ⟨by simp, hp, fun j hj hjk => ?_⟩
        rcases List.mem_cons.mp hj with rfl | hj
        · exact absurd hjk (lt_irrefl _)
        · exact absurd (ha j hj) (lt_asymm hjk)
      · rintro ⟨hk, hpk, hmin⟩
        rcases List.mem_cons.mp hk with rfl | hk
        · rfl
        · simp [hmin a (by simp) (ha k hk)] at hp
    · rw [List.find?_cons_of_neg hp, ih hl]
      constructor
      · rintro ⟨hk, hpk, hmin⟩
        refine ⟨List.mem_cons_of_mem _ hk, hpk, fun j hj hjk => ?_⟩
        rcases List.mem_cons.mp hj with rfl | hj
        · simpa using hp
        · exact hmin j hj hjk
      · rintro ⟨hk, hpk, hmin⟩
        refine ⟨(List.mem_cons.mp hk).resolve_left ?_, hpk, fun j hj => hmin j (List.mem_cons_of_mem _ hj)⟩
        rintro rfl
        exact hp hpk

/-- The lowest pressed key is pressed and no lower one is. -/
theorem State.lowestKey_eq_some (s : State) (k : Reg) :
    s.lowestKey = some k ↔ s.isPressed k.val = true ∧ ∀ j : Reg, j < k → s.isPressed j.val = false := by
  simp only [State.lowestKey, find?_eq_some_of_pairwise_lt pairwise_allRegs, mem_allRegs, true_and, true_imp_iff]

/-! ### Grid -/

/-- A pixel read after a write inside the grid. -/
theorem Grid.get_put {g : Grid} {w h : Nat} (hg : Grid.wf g w h) {px py : Nat} (hx : px < w) (hy : py < h) (b : Bool)
    (qx qy : Nat) : Grid.get (Grid.put g px py b) qx qy = if qx = px ∧ qy = py then b else Grid.get g qx qy := by
  obtain ⟨hl, hr⟩ := hg
  have hy' : py < g.length := hl ▸ hy
  have hrow : px < g[py].length := by rw [hr _ (List.getElem_mem hy')]; exact hx
  by_cases h1 : qy = py
  · subst h1
    by_cases h2 : qx = px
    · subst h2
      simp [Grid.get, Grid.put, hy', hrow]
    · simp [Grid.get, Grid.put, hy', h2, Ne.symm h2]
  · simp [Grid.get, Grid.put, h1, Ne.symm h1]

/-- Writing a pixel keeps the grid's size. -/
theorem Grid.wf_put {g : Grid} {w h : Nat} (hg : Grid.wf g w h) (px py : Nat) (b : Bool) :
    Grid.wf (Grid.put g px py b) w h := by
  obtain ⟨hl, hr⟩ := hg
  refine ⟨by simp [Grid.put, hl], fun row hrow => ?_⟩
  by_cases hy : py < g.length
  · rcases List.mem_or_eq_of_mem_set hrow with hm | rfl
    · exact hr row hm
    · simp [hy, hr]
  · rw [Grid.put, List.set_eq_of_length_le (Nat.le_of_not_lt hy)] at hrow
    exact hr row hrow

theorem Grid.wf_unlit (w h : Nat) : Grid.wf (Grid.unlit w h) w h := by
  refine ⟨by simp [Grid.unlit], fun row hrow => ?_⟩
  rw [List.eq_of_mem_replicate hrow, List.length_replicate]

@[simp] theorem Grid.get_unlit (w h px py : Nat) : Grid.get (Grid.unlit w h) px py = false := by
  simp only [Grid.get, Grid.unlit, List.getElem?_replicate]
  split
  · simp only [Option.getD_some, List.getElem?_replicate]
    split <;> rfl
  · simp

end Sys2Proof.Machine
end

