-- ==== Sys2Proof/Laws/Display.lean ====
section
/-! SUPPORT. What the collision engine does, said once: a draw toggles a list of pixels in order. A pixel ends up changed when
it was toggled an odd number of times, and a collision is a toggle of a lit pixel (44_display.md R171). -/

namespace Sys2Proof.Machine

/-- One toggle of the engine: the pixel changes, and a lit one makes a collision. -/
def toggle (d : Grid × Bool) (q : Nat × Nat) : Grid × Bool :=
  (Grid.put d.1 q.1 q.2 (!Grid.get d.1 q.1 q.2), d.2 || Grid.get d.1 q.1 q.2)

/-- The pixels that one sprite row toggles, in order. -/
def toggledByRow (p : Params) (px0 py0 r : Nat) (row : Byte) : List (Nat × Nat) :=
  ((List.range Config.spriteWidth).filter (fun c => row.getLsbD (7 - c))).map
    (fun c => ((px0 + c) % p.displayW, (py0 + r) % p.displayH))

/-- The pixels that the rows from row `r` on toggle, in order. -/
def toggledByRows (p : Params) (px0 py0 r : Nat) (rows : List Byte) : List (Nat × Nat) :=
  match rows with
  | [] => []
  | row :: rest => toggledByRow p px0 py0 r row ++ toggledByRows p px0 py0 (r + 1) rest

theorem drawRow_eq (p : Params) (px0 py0 r : Nat) (row : Byte) (d : Grid × Bool) :
    drawRow p px0 py0 r row d = (toggledByRow p px0 py0 r row).foldl toggle d := by
  rw [drawRow, toggledByRow, List.foldl_map, List.foldl_filter]
  rfl

theorem drawRows_eq (p : Params) (px0 py0 r : Nat) (rows : List Byte) (d : Grid × Bool) :
    drawRows p px0 py0 r rows d = (toggledByRows p px0 py0 r rows).foldl toggle d := by
  induction rows generalizing r d with
  | nil => rfl
  | cons row rest ih => rw [drawRows, toggledByRows, List.foldl_append, ih, drawRow_eq]

/-- The engine as a list of toggles. -/
theorem drawSprite_eq (p : Params) (px0 py0 : Byte) (rows : List Byte) (g : Grid) :
    drawSprite p px0 py0 rows g = (toggledByRows p px0.toNat py0.toNat 0 rows).foldl toggle (g, false) :=
  drawRows_eq ..

/-- Every toggled pixel is inside the grid. -/
theorem mem_toggledByRows {p : Params} (hp : p.wf) {px0 py0 r : Nat} {rows : List Byte} {q : Nat × Nat}
    (h : q ∈ toggledByRows p px0 py0 r rows) : q.1 < p.displayW ∧ q.2 < p.displayH := by
  induction rows generalizing r with
  | nil => simp [toggledByRows] at h
  | cons row rest ih =>
    rcases List.mem_append.mp h with h | h
    · obtain ⟨c, -, rfl⟩ := List.mem_map.mp h
      exact ⟨Nat.mod_lt _ hp.1, Nat.mod_lt _ hp.2⟩
    · exact ih h

/-- A list of toggles inside a grid: the grid keeps its size, a pixel is the old one when toggled an even number of times
and its negation when toggled an odd number, and there is a collision when a toggled pixel was lit or was toggled twice. -/
theorem foldl_toggle {w h : Nat} (l : List (Nat × Nat)) (hl : ∀ q ∈ l, q.1 < w ∧ q.2 < h) (g : Grid) (c : Bool)
    (hg : Grid.wf g w h) :
    Grid.wf (l.foldl toggle (g, c)).1 w h ∧
      (∀ px py, Grid.get (l.foldl toggle (g, c)).1 px py = (Grid.get g px py ^^ decide (l.count (px, py) % 2 = 1))) ∧
      ((l.foldl toggle (g, c)).2 = true ↔
        c = true ∨ ∃ q ∈ l, Grid.get g q.1 q.2 = true ∨ 2 ≤ l.count q) := by
  induction l generalizing g c with
  | nil => exact ⟨hg, by simp, by simp⟩
  | cons a l ih =>
    obtain ⟨ha1, ha2⟩ := hl a (by simp)
    have hput : ∀ px py, Grid.get (Grid.put g a.1 a.2 (!Grid.get g a.1 a.2)) px py =
        if (px, py) = a then !Grid.get g a.1 a.2 else Grid.get g px py := by
      intro px py
      rw [Grid.get_put hg ha1 ha2]
      simp only [Prod.ext_iff]
    obtain ⟨i1, i2, i3⟩ := ih (fun q hq => hl q (by simp [hq])) _ (c || Grid.get g a.1 a.2)
      (Grid.wf_put hg a.1 a.2 (!Grid.get g a.1 a.2))
    refine ⟨i1, fun px py => ?_, ?_⟩
    · rw [List.foldl_cons, toggle, i2, hput]
      by_cases hq : (px, py) = a
      · subst hq
        simp only [if_true, List.count_cons_self]
        rcases Nat.mod_two_eq_zero_or_one (l.count (px, py)) with e | e <;>
          cases Grid.get g px py <;> simp [e, Nat.add_mod]
      · simp only [hq, if_false, List.count_cons_of_ne (Ne.symm hq)]
    · rw [List.foldl_cons, toggle, i3]
      have hget : ∀ q : Nat × Nat, Grid.get (Grid.put g a.1 a.2 (!Grid.get g a.1 a.2)) q.1 q.2 =
          if q = a then !Grid.get g a.1 a.2 else Grid.get g q.1 q.2 := fun q => hput q.1 q.2
      simp only [hget, Bool.or_eq_true]
      constructor
      · rintro ((hc | hlit) | ⟨q, hq, hlit | htwice⟩)
        · exact .inl hc
        · exact .inr ⟨a, by simp, .inl hlit⟩
        · by_cases hqa : q = a
          · subst hqa
            have := List.count_pos_iff.mpr hq
            exact .inr ⟨q, by simp, .inr (by rw [List.count_cons_self]; omega)⟩
          · rw [if_neg hqa] at hlit
            exact .inr ⟨q, by simp [hq], .inl hlit⟩
        · exact .inr ⟨q, by simp [hq], .inr (Nat.le_trans htwice (List.count_le_count_cons))⟩
      · rintro (hc | ⟨q, hq, hlit⟩)
        · exact .inl (.inl hc)
        · by_cases hqa : q = a
          · subst hqa
            by_cases hold : Grid.get g q.1 q.2 = true
            · exact .inl (.inr hold)
            · have htwice := hlit.resolve_left hold
              rw [List.count_cons_self] at htwice
              exact .inr ⟨q, List.count_pos_iff.mp (by omega), .inl (by simp [hold])⟩
          · have hql : q ∈ l := (List.mem_cons.mp hq).resolve_left hqa
            rw [List.count_cons_of_ne (Ne.symm hqa)] at hlit
            exact .inr ⟨q, hql, by rw [if_neg hqa]; exact hlit⟩

/-- `DrawSprite` on a grid of the instance's size. -/
theorem drawSprite_spec {p : Params} (hp : p.wf) (px0 py0 : Byte) (rows : List Byte) {g : Grid}
    (hg : Grid.wf g p.displayW p.displayH) :
    let l := toggledByRows p px0.toNat py0.toNat 0 rows
    Grid.wf (drawSprite p px0 py0 rows g).1 p.displayW p.displayH ∧
      (∀ px py, Grid.get (drawSprite p px0 py0 rows g).1 px py =
        (Grid.get g px py ^^ decide (l.count (px, py) % 2 = 1))) ∧
      ((drawSprite p px0 py0 rows g).2 = true ↔ ∃ q ∈ l, Grid.get g q.1 q.2 = true ∨ 2 ≤ l.count q) := by
  simp only [drawSprite_eq]
  have := foldl_toggle _ (fun q hq => mem_toggledByRows hp (px0 := px0.toNat) (py0 := py0.toNat) (r := 0) (rows := rows) hq)
    g false hg
  simpa using this

end Sys2Proof.Machine
end

