-- ==== Sys2Proof/Laws/PerInstr.lean ====
section
/-! SUPPORT. Statements about every instruction as syntax, one lemma per constructor. -/

namespace Sys2Proof

/-- The encoded word of the instruction lies in its own row of the opcode map: `(w & mask) == match` (30_encoding.md R73). -/
def Laws.RowMatch.Statement (i : Instr) : Prop := matchesRow (encode i) (rowOf i) = true

namespace Laws.RowMatch

theorem cls : Statement .cls := rfl

theorem ret : Statement .ret := rfl

theorem jp (nnn : Addr) : Statement (.jp nnn) := by
  simp [Statement, matchesRow, encode, rowOf, and_F000_nnn]

theorem call (nnn : Addr) : Statement (.call nnn) := by
  simp [Statement, matchesRow, encode, rowOf, and_F000_nnn]

theorem seImm (x : Reg) (kk : Byte) : Statement (.seImm x kk) := by
  simp [Statement, matchesRow, encode, rowOf, and_F000_xkk]

theorem sneImm (x : Reg) (kk : Byte) : Statement (.sneImm x kk) := by
  simp [Statement, matchesRow, encode, rowOf, and_F000_xkk]

theorem seReg (x y : Reg) : Statement (.seReg x y) := by
  simp [Statement, matchesRow, encode, rowOf, and_F00F_xy]

theorem ldImm (x : Reg) (kk : Byte) : Statement (.ldImm x kk) := by
  simp [Statement, matchesRow, encode, rowOf, and_F000_xkk]

theorem addImm (x : Reg) (kk : Byte) : Statement (.addImm x kk) := by
  simp [Statement, matchesRow, encode, rowOf, and_F000_xkk]

theorem ldReg (x y : Reg) : Statement (.ldReg x y) := by
  simp [Statement, matchesRow, encode, rowOf, and_F00F_xy]

theorem orReg (x y : Reg) : Statement (.orReg x y) := by
  simp [Statement, matchesRow, encode, rowOf, and_F00F_xy]

theorem andReg (x y : Reg) : Statement (.andReg x y) := by
  simp [Statement, matchesRow, encode, rowOf, and_F00F_xy]

theorem xorReg (x y : Reg) : Statement (.xorReg x y) := by
  simp [Statement, matchesRow, encode, rowOf, and_F00F_xy]

theorem addReg (x y : Reg) : Statement (.addReg x y) := by
  simp [Statement, matchesRow, encode, rowOf, and_F00F_xy]

theorem subReg (x y : Reg) : Statement (.subReg x y) := by
  simp [Statement, matchesRow, encode, rowOf, and_F00F_xy]

theorem shr (x y : Reg) : Statement (.shr x y) := by
  simp [Statement, matchesRow, encode, rowOf, and_F00F_xy]

theorem subn (x y : Reg) : Statement (.subn x y) := by
  simp [Statement, matchesRow, encode, rowOf, and_F00F_xy]

theorem shl (x y : Reg) : Statement (.shl x y) := by
  simp [Statement, matchesRow, encode, rowOf, and_F00F_xy]

theorem sneReg (x y : Reg) : Statement (.sneReg x y) := by
  simp [Statement, matchesRow, encode, rowOf, and_F00F_xy]

theorem ldI (nnn : Addr) : Statement (.ldI nnn) := by
  simp [Statement, matchesRow, encode, rowOf, and_F000_nnn]

theorem jpV0 (nnn : Addr) : Statement (.jpV0 nnn) := by
  simp [Statement, matchesRow, encode, rowOf, and_F000_nnn]

theorem rnd (x : Reg) (kk : Byte) : Statement (.rnd x kk) := by
  simp [Statement, matchesRow, encode, rowOf, and_F000_xkk]

theorem drw (x y : Reg) (n : Nat) : Statement (.drw x y n) := by
  simp [Statement, matchesRow, encode, rowOf, and_F000_xyn]

theorem skp (x : Reg) : Statement (.skp x) := by
  simp [Statement, matchesRow, encode, rowOf, and_F0FF_xLow]

theorem sknp (x : Reg) : Statement (.sknp x) := by
  simp [Statement, matchesRow, encode, rowOf, and_F0FF_xLow]

theorem ldFromDt (x : Reg) : Statement (.ldFromDt x) := by
  simp [Statement, matchesRow, encode, rowOf, and_F0FF_xLow]

theorem ldKey (x : Reg) : Statement (.ldKey x) := by
  simp [Statement, matchesRow, encode, rowOf, and_F0FF_xLow]

theorem ldDt (x : Reg) : Statement (.ldDt x) := by
  simp [Statement, matchesRow, encode, rowOf, and_F0FF_xLow]

theorem ldSt (x : Reg) : Statement (.ldSt x) := by
  simp [Statement, matchesRow, encode, rowOf, and_F0FF_xLow]

theorem addI (x : Reg) : Statement (.addI x) := by
  simp [Statement, matchesRow, encode, rowOf, and_F0FF_xLow]

theorem ldFont (x : Reg) : Statement (.ldFont x) := by
  simp [Statement, matchesRow, encode, rowOf, and_F0FF_xLow]

theorem ldBcd (x : Reg) : Statement (.ldBcd x) := by
  simp [Statement, matchesRow, encode, rowOf, and_F0FF_xLow]

theorem storeRegs (x : Reg) : Statement (.storeRegs x) := by
  simp [Statement, matchesRow, encode, rowOf, and_F0FF_xLow]

theorem loadRegs (x : Reg) : Statement (.loadRegs x) := by
  simp [Statement, matchesRow, encode, rowOf, and_F0FF_xLow]

end Laws.RowMatch

end Sys2Proof
end

