-- ==== Sys2Proof/Laws/Step.lean ====
section
/-! SUPPORT. What an instruction and a step can do, said once. -/

namespace Sys2Proof.Machine

/-- An answered instruction either entered a fault other than the fetch's, which changes the latch alone, or left the latch, the parameters and the
keypad as they were (40_step.md R94, 60_exceptions.md R213). -/
theorem exec_cases {i : Instr} {s t : State} (h : exec i s = .next t) :
    (∃ c a, c ≠ .none ∧ c ≠ .fetchOutOfRange ∧ t = s.enterFault c (encode i) a) ∨
      (t.faulted = s.faulted ∧ t.faultRecord = s.faultRecord ∧ t.params = s.params ∧ t.key = s.key) := by
  have block : ∀ {op k body}, checkBlock op k s body = .next t → op = encode i →
      (body.faulted = s.faulted ∧ body.faultRecord = s.faultRecord ∧ body.params = s.params ∧ body.key = s.key) →
      (∃ c a, c ≠ .none ∧ c ≠ .fetchOutOfRange ∧ t = s.enterFault c (encode i) a) ∨
        (t.faulted = s.faulted ∧ t.faultRecord = s.faultRecord ∧ t.params = s.params ∧ t.key = s.key) := by
    intro op k body h e hb
    rcases checkBlock_cases h with ⟨rfl, -⟩ | ⟨a, -, rfl⟩
    · exact .inr hb
    · exact .inl ⟨.memoryOutOfRange, a, by simp, by simp, by rw [e]⟩
  have key : ∀ {op k body}, checkKey op k s body = .next t → op = encode i →
      (body.faulted = s.faulted ∧ body.faultRecord = s.faultRecord ∧ body.params = s.params ∧ body.key = s.key) →
      (∃ c a, c ≠ .none ∧ c ≠ .fetchOutOfRange ∧ t = s.enterFault c (encode i) a) ∨
        (t.faulted = s.faulted ∧ t.faultRecord = s.faultRecord ∧ t.params = s.params ∧ t.key = s.key) := by
    intro op k body h e hb
    rcases checkKey_cases h with ⟨rfl, -⟩ | ⟨-, rfl⟩
    · exact .inr hb
    · exact .inl ⟨.keyOutOfRange, k, by simp, by simp, by rw [e]⟩
  cases i with
  | ret =>
    simp only [exec, execRet, raiseFault] at h
    split at h <;> cases h
    · exact .inl ⟨_, _, (by decide), (by decide), rfl⟩
    · exact .inr ⟨rfl, rfl, rfl, rfl⟩
  | call nnn =>
    simp only [exec, execCall, raiseFault] at h
    split at h <;> cases h
    · exact .inl ⟨_, _, (by decide), (by decide), rfl⟩
    · exact .inr ⟨rfl, rfl, rfl, rfl⟩
  | ldKey x =>
    simp only [exec, execLdKey] at h
    split at h <;> cases h <;> exact .inr ⟨rfl, rfl, rfl, rfl⟩
  | skp x => exact key h rfl ⟨rfl, rfl, rfl, rfl⟩
  | sknp x => exact key h rfl ⟨rfl, rfl, rfl, rfl⟩
  | drw x y n => exact block h rfl ⟨rfl, rfl, rfl, rfl⟩
  | ldBcd x => exact block h rfl (by simp)
  | storeRegs x =>
    refine block h rfl ?_
    rw [State.advance_faulted, State.advance_faultRecord, State.advance_params, State.advance_key,
      State.afterBlock_faulted, State.afterBlock_faultRecord, State.afterBlock_params, State.afterBlock_key,
      State.storeBlock_eq]
    exact ⟨rfl, rfl, rfl, rfl⟩
  | loadRegs x =>
    refine block h rfl ?_
    rw [State.advance_faulted, State.advance_faultRecord, State.advance_params, State.advance_key,
      State.afterBlock_faulted, State.afterBlock_faultRecord, State.afterBlock_params, State.afterBlock_key,
      (State.loadBlock_spec s _ x).1]
    exact ⟨rfl, rfl, rfl, rfl⟩
  | _ => cases h; exact .inr ⟨rfl, rfl, rfl, rfl⟩

/-- What a step that answers a next state did: it was not faulted, and it raised the fetch fault, ran an unrecognized word,
or ran the instruction it decoded (40_step.md R90). -/
theorem step_cases {s t : State} (h : step s = .next t) :
    s.faulted = false ∧
      ((s.fetch = none ∧ t = s.enterFault .fetchOutOfRange 0 s.pc.toNat) ∨
        ∃ op, s.fetch = some op ∧ ((decodeWord op = none ∧ t = s.advance) ∨
          ∃ i, decodeWord op = some i ∧ exec i s = .next t)) := by
  unfold step runStep at h
  split at h
  · cases h
  · rename_i hf
    refine ⟨by simpa using hf, ?_⟩
    split at h
    · cases h
      exact .inl ⟨‹_›, rfl⟩
    · rename_i op hop
      refine .inr ⟨op, hop, ?_⟩
      split at h
      · cases h
        exact .inl ⟨‹_›, rfl⟩
      · exact .inr ⟨_, ‹_›, h⟩

/-- A step of a state that is not faulted and fetches a recognized word is that instruction (R90). -/
theorem step_of_decode {s : State} {op : Word} {i : Instr} (hf : s.faulted = false) (hop : s.fetch = some op)
    (hi : decodeWord op = some i) : step s = exec i s := by
  simp [step, runStep, hf, hop, hi]

/-- The fetch: the big-endian word at `PC` (20_memory.md R52). -/
theorem fetch_eq_some {s : State} (h : s.pc.toNat ≤ 0xFFE) :
    s.fetch = some (wordOfBytes (s.readByte s.pc.toNat) (s.readByte (s.pc.toNat + 1))) := by
  simp only [State.fetch, Nat.not_lt.mpr h, if_false]

theorem fetch_eq_none {s : State} : s.fetch = none ↔ 0xFFE < s.pc.toNat := by
  simp only [State.fetch]
  split <;> simp [*]

end Sys2Proof.Machine
end

