-- ==== Sys2Proof/Laws/Transactions.lean ====
section
/-! SUPPORT. What the host transactions do, said once, and the induction over a list of them. -/

namespace Sys2Proof.Machine

/-- A timer after a tick: one less, floored at 0 (60_exceptions.md R217). -/
theorem decrementFloored_toNat (b : Byte) : (decrementFloored b).toNat = b.toNat - 1 := by
  unfold decrementFloored
  split
  · simp [*]
  · rename_i h
    have h0 : b.toNat ≠ 0 := fun e => h (BitVec.eq_of_toNat_eq e)
    have := b.isLt
    simp [BitVec.toNat_sub]
    omega

/-- The state after a step transaction: the same state when the step is refused, else the step's next state. -/
theorem stateAfterStep_cases (s : State) :
    (stateAfterStep s = s ∧ ∃ r, step s = .refused r) ∨ step s = .next (stateAfterStep s) := by
  unfold stateAfterStep
  split
  · exact .inl ⟨rfl, _, ‹_›⟩
  · rename_i e _
    cases e
  · exact .inr ‹_›

/-- What every transaction keeps holds after every list of transactions, in any interleaving (60_exceptions.md R223). -/
theorem runTransactions_induction {P : State → Prop} (keep : ∀ t s, P s → P (transact t s).2) (ts : List Transaction)
    (s : State) (h : P s) : P (runTransactions ts s) := by
  induction ts generalizing s with
  | nil => exact h
  | cons t ts ih => exact ih _ (keep t s h)

end Sys2Proof.Machine
end

