-- ==== Sys2Proof/Tests/Slice0.lean ====
section
/-! SUPPORT. Tests: the check on ill-formed terms, words written out from the patterns of 30_encoding.md R73, the vectors of
95_test_vectors.md (named in each comment), and a witness for the hypotheses of each obligation. -/

namespace Sys2Proof.Tests

open Sys2Proof Sys2Proof.Machine

/-! ### Helpers -/

/-- The start of the vectors: reset, `PC = p`, the word at `PC`. -/
def startAt (p op : Word) : State := { State.reset with pc := p }.placeWord op

/-- The usual start: the word at 0x200. -/
def start (op : Word) : State := startAt 0x200 op

/-- Registers set. -/
def withRegs (s : State) (l : List (Reg × Byte)) : State := l.foldl (fun t c => t.setReg c.1 c.2) s

/-- Bytes put at an address. -/
def withBytes (s : State) (a : Nat) (l : List Byte) : State :=
  match l with
  | [] => s
  | b :: rest => withBytes (s.storeByte a b) (a + 1) rest

/-- `I` set. -/
def withI (s : State) (i : Word) : State := { s with i := i }

/-- `n` return addresses on the stack, each `w`. -/
def withCalls (s : State) (n : Nat) (w : Word) : State :=
  match n with
  | 0 => s
  | n + 1 => withCalls (s.push w) n w

/-- A small display, for tests of the draw. -/
def withGrid (s : State) (w h : Nat) (lit : List (Nat × Nat)) : State :=
  { s with
    params := { s.params with displayW := w, displayH := h }
    pix := lit.foldl (fun g q => g.put q.1 q.2 true) (Grid.unlit w h) }

/-- The step's result, the next `PC`, and the named registers after the step. -/
def afterStep (s : State) (rs : List Reg) : StepResult × Word × List Byte :=
  (stepResult s, (stateAfterStep s).pc, rs.map (stateAfterStep s).reg)

/-- The step's result, the next `PC`, `I`, and `k` bytes from address `a` after the step. -/
def bytesAfterStep (s : State) (a k : Nat) : StepResult × Word × Word × List Byte :=
  (stepResult s, (stateAfterStep s).pc, (stateAfterStep s).i, (addresses a k).map (stateAfterStep s).readByte)

/-- The step's result, the stack depth, the next `PC` and the fault record after the step. -/
def stackAfterStep (s : State) : StepResult × Nat × Word × FaultRecord :=
  (stepResult s, (stateAfterStep s).sp.val, (stateAfterStep s).pc, (stateAfterStep s).faultRecord)

/-- The lit pixels after the step, row by row, and VF. -/
def litAfterStep (s : State) : List (Nat × Nat) × Byte :=
  let t := stateAfterStep s
  ((List.range t.params.displayH).flatMap fun py =>
    ((List.range t.params.displayW).filter fun px => t.pixel px py).map fun px => (px, py), t.reg VF)

/-! ### Well-formedness: the one check refuses a row count above 15 (R71) -/

theorem test_wf_drw_15 : (Instr.drw 0 0 15).wf = true := by decide
theorem test_illformed_drw_16 : (Instr.drw 0 0 16).wf = false := by decide

/-! ### Decoding: a word of every row, written out from its pattern (R73) -/

theorem test_decode_cls : decodeWord 0b0000000011100000 = some .cls := by decide
theorem test_decode_ret : decodeWord 0b0000000011101110 = some .ret := by decide
theorem test_decode_jp : decodeWord 0b0001001000110100 = some (.jp 0x234) := by decide
theorem test_decode_call : decodeWord 0b0010101010111100 = some (.call 0xABC) := by decide
theorem test_decode_seImm : decodeWord 0b0011001101000010 = some (.seImm 3 0x42) := by decide
theorem test_decode_sneImm : decodeWord 0b0100001101000010 = some (.sneImm 3 0x42) := by decide
theorem test_decode_seReg : decodeWord 0b0101000100100000 = some (.seReg 1 2) := by decide
theorem test_decode_ldImm : decodeWord 0b0110101001011100 = some (.ldImm 10 0x5C) := by decide
theorem test_decode_addImm : decodeWord 0b0111111100000001 = some (.addImm 15 0x01) := by decide
theorem test_decode_ldReg : decodeWord 0b1000000100100000 = some (.ldReg 1 2) := by decide
theorem test_decode_orReg : decodeWord 0b1000000100100001 = some (.orReg 1 2) := by decide
theorem test_decode_andReg : decodeWord 0b1000000100100010 = some (.andReg 1 2) := by decide
theorem test_decode_xorReg : decodeWord 0b1000000100100011 = some (.xorReg 1 2) := by decide
theorem test_decode_addReg : decodeWord 0b1000000111110100 = some (.addReg 1 15) := by decide
theorem test_decode_subReg : decodeWord 0b1000111100010101 = some (.subReg 15 1) := by decide
theorem test_decode_shr : decodeWord 0b1000000100100110 = some (.shr 1 2) := by decide
theorem test_decode_subn : decodeWord 0b1000000100100111 = some (.subn 1 2) := by decide
theorem test_decode_shl : decodeWord 0b1000000100101110 = some (.shl 1 2) := by decide
theorem test_decode_sneReg : decodeWord 0b1001000100100000 = some (.sneReg 1 2) := by decide
theorem test_decode_ldI : decodeWord 0b1010001100000000 = some (.ldI 0x300) := by decide
theorem test_decode_jpV0 : decodeWord 0b1011111111111111 = some (.jpV0 0xFFF) := by decide
theorem test_decode_rnd : decodeWord 0b1100001100001111 = some (.rnd 3 0x0F) := by decide
theorem test_decode_drw : decodeWord 0b1101000000010010 = some (.drw 0 1 2) := by decide
theorem test_decode_skp : decodeWord 0b1110010110011110 = some (.skp 5) := by decide
theorem test_decode_sknp : decodeWord 0b1110010110100001 = some (.sknp 5) := by decide
theorem test_decode_ldFromDt : decodeWord 0b1111001100000111 = some (.ldFromDt 3) := by decide
theorem test_decode_ldKey : decodeWord 0b1111001000001010 = some (.ldKey 2) := by decide
theorem test_decode_ldDt : decodeWord 0b1111001100010101 = some (.ldDt 3) := by decide
theorem test_decode_ldSt : decodeWord 0b1111001100011000 = some (.ldSt 3) := by decide
theorem test_decode_addI : decodeWord 0b1111001000011110 = some (.addI 2) := by decide
theorem test_decode_ldFont : decodeWord 0b1111010000101001 = some (.ldFont 4) := by decide
theorem test_decode_ldBcd : decodeWord 0b1111010100110011 = some (.ldBcd 5) := by decide
theorem test_decode_storeRegs : decodeWord 0b1111001001010101 = some (.storeRegs 2) := by decide
theorem test_decode_loadRegs : decodeWord 0b1111001001100101 = some (.loadRegs 2) := by decide

/-- A byte string is two bytes an instruction, high byte first (R52, R77). -/
theorem test_decode_bytes : decode [0x2A, 0xBC, 0x00] = .instr (.call 0xABC) [0x00] := by decide
theorem test_decode_bytes_unrecognized : decode [0x51, 0x21] = .unrecognized 0x5121 [] := by decide
theorem test_decode_bytes_truncated : decode [0x51] = .truncated := by decide
theorem test_decode_table_word : decodeTableWord 16 0x8124 = some (.addReg 1 2) := by decide

/-- Unrecognized words (T1, T3, T6). -/
theorem test_unrecognized_words : [0x0000, 0x8008, 0x0123, 0x5121, 0xE0FF, 0xF0FF].map decodeWord =
    [none, none, none, none, none, none] := by decide

/-! ### Steps (T, F) -/

theorem test_T1_unrecognized : afterStep (start 0x0000) [] = (.okUnrecognized, 0x202, []) := by decide
theorem test_T7_fetch_fault : stackAfterStep { State.reset with pc := 0xFFF } =
    (.fault .fetchOutOfRange, 0, 0xFFF, ⟨.fetchOutOfRange, 0xFFF, 0x0000, 0xFFF⟩) := by decide
theorem test_T8_last_fetch : afterStep (startAt 0xFFE 0x6142) [1] = (.ok, 0x1000, [0x42]) := by decide
theorem test_withFetchWord : afterStep (State.reset.withFetchWord 16 0x6A5C) [10] = (.ok, 0x002, [0x5C]) := by decide

theorem test_F1_ret : stackAfterStep (withCalls (startAt 0xABC 0x00EE) 1 0x025) =
    (.ok, 0, 0x025, FaultRecord.empty) := by decide
theorem test_F2_ret_underflow : stackAfterStep (start 0x00EE) =
    (.fault .stackUnderflow, 0, 0x200, ⟨.stackUnderflow, 0x200, 0x00EE, 0⟩) := by decide
theorem test_F4_jp : afterStep (start 0x1FFF) [] = (.ok, 0xFFF, []) := by decide
theorem test_F5_call : (stackAfterStep (startAt 0x023 0x2ABC), (stateAfterStep (startAt 0x023 0x2ABC)).stackAt 0) =
    ((.ok, 1, 0xABC, FaultRecord.empty), 0x025) := by decide
theorem test_F7_call_overflow : stackAfterStep (withCalls (start 0x2400) 16 0x202) =
    (.fault .stackOverflow, 16, 0x200, ⟨.stackOverflow, 0x200, 0x2400, 0⟩) := by decide
theorem test_F9_jpV0 : afterStep (withRegs (start 0xBFFF) [(0, 0xFF)]) [] = (.ok, 0x10FE, []) := by decide
theorem test_F10_seImm : afterStep (withRegs (start 0x3342) [(3, 0x42)]) [] = (.ok, 0x204, []) := by decide
theorem test_F11_seImm : afterStep (withRegs (start 0x3342) [(3, 0x41)]) [] = (.ok, 0x202, []) := by decide
theorem test_F12_sneImm : afterStep (withRegs (start 0x4342) [(3, 0x42)]) [] = (.ok, 0x202, []) := by decide
theorem test_F13_sneImm : afterStep (withRegs (start 0x4342) [(3, 0x41)]) [] = (.ok, 0x204, []) := by decide
theorem test_F14_seReg : afterStep (withRegs (start 0x5120) [(1, 7), (2, 7)]) [] = (.ok, 0x204, []) := by decide
theorem test_seReg_differ : afterStep (withRegs (start 0x5120) [(1, 7), (2, 8)]) [] = (.ok, 0x202, []) := by decide
theorem test_F16_sneReg : afterStep (withRegs (start 0x9120) [(1, 7), (2, 8)]) [] = (.ok, 0x204, []) := by decide
theorem test_F17_sneReg : afterStep (withRegs (start 0x9110) [(1, 9)]) [] = (.ok, 0x202, []) := by decide

/-! ### Registers and ALU (A) -/

/-- The parameters of the vectors that name `BORROW_FLAG_MODE = REFERENCE_LT`. -/
def referenceLt (s : State) : State := { s with params := { s.params with borrowFlagMode := .referenceLt } }

/-- The parameters of the vector that names `SHIFT_SOURCE = VY`. -/
def shiftVy (s : State) : State := { s with params := { s.params with shiftSource := .vy } }

theorem test_A1_ldImm : afterStep (start 0x6A5C) [10] = (.ok, 0x202, [0x5C]) := by decide
theorem test_A2_addImm : afterStep (withRegs (start 0x71FF) [(1, 1)]) [1, 15] = (.ok, 0x202, [0, 0]) := by decide
theorem test_A3_addImm : afterStep (withRegs (start 0x7F01) [(15, 0xFF)]) [15] = (.ok, 0x202, [0]) := by decide
theorem test_A4_ldReg : afterStep (withRegs (start 0x8120) [(1, 3), (2, 0x5A)]) [1, 2] =
    (.ok, 0x202, [0x5A, 0x5A]) := by decide
theorem test_A5_orReg : afterStep (withRegs (start 0x8121) [(1, 0xF0), (2, 0x0F), (15, 7)]) [1, 15] =
    (.ok, 0x202, [0xFF, 7]) := by decide
theorem test_A6_andReg : afterStep (withRegs (start 0x8122) [(1, 0xF3), (2, 0x3F), (15, 7)]) [1, 15] =
    (.ok, 0x202, [0x33, 7]) := by decide
theorem test_A7_xorReg : afterStep (withRegs (start 0x8123) [(1, 0xF3), (2, 0x3F), (15, 7)]) [1, 15] =
    (.ok, 0x202, [0xCC, 7]) := by decide
theorem test_A12_addReg : afterStep (withRegs (start 0x8124) [(1, 0xFF), (2, 1)]) [1, 15] =
    (.ok, 0x202, [0, 1]) := by decide
theorem test_A13_addReg : afterStep (withRegs (start 0x8F14) [(15, 0xF0), (1, 0x20)]) [15] =
    (.ok, 0x202, [1]) := by decide
theorem test_A16_subReg : afterStep (withRegs (start 0x8125) [(1, 10), (2, 20)]) [1, 15] =
    (.ok, 0x202, [0xF6, 0]) := by decide
theorem test_A17_subReg : afterStep (referenceLt (withRegs (start 0x8125) [(1, 10), (2, 20)])) [1, 15] =
    (.ok, 0x202, [0xF6, 1]) := by decide
theorem test_A22_subn : afterStep (withRegs (start 0x8127) [(1, 20), (2, 10)]) [1, 15] =
    (.ok, 0x202, [0xF6, 0]) := by decide
theorem test_A24_subn : afterStep (withRegs (start 0x8127) [(1, 7), (2, 7)]) [1, 15] =
    (.ok, 0x202, [0, 1]) := by decide
theorem test_A25_shr : afterStep (withRegs (start 0x8106) [(1, 5)]) [1, 15] = (.ok, 0x202, [2, 1]) := by decide
theorem test_A27_shr : afterStep (shiftVy (withRegs (start 0x8126) [(1, 4), (2, 7)])) [1, 15] =
    (.ok, 0x202, [3, 1]) := by decide
theorem test_A29_shl : afterStep (withRegs (start 0x810E) [(1, 0x81)]) [1, 15] = (.ok, 0x202, [2, 1]) := by decide
theorem test_A31_shl : afterStep (withRegs (start 0x8FFE) [(15, 0x80)]) [15] = (.ok, 0x202, [1]) := by decide

/-- A32, A33 for a draw of any value: the byte is masked, so kk = 0 gives 0, and the next draw is another one. -/
theorem test_A33_rnd (s : State) : ∃ t, exec (.rnd 3 0x00) s = .next t ∧ t.reg 3 = 0 ∧ t.draws = s.draws + 1 := by
  refine ⟨_, rfl, ?_, rfl⟩
  have h : Config.rand8 s.draws &&& 0#8 = 0#8 := by simp
  change (s.v.set 3 (Config.rand8 s.draws &&& 0#8))[3] = 0#8
  simp

/-! ### Index register and memory (M) -/

theorem test_M1_ldI : bytesAfterStep (start 0xA300) 0 0 = (.ok, 0x202, 0x300, []) := by decide
theorem test_M2_addI : bytesAfterStep (withI (withRegs (start 0xF21E) [(2, 2)]) 0xFFF) 0 0 =
    (.ok, 0x202, 0x1001, []) := by decide
theorem test_M3_addI : bytesAfterStep (withI (withRegs (start 0xF21E) [(2, 2)]) 0xFFFF) 0 0 =
    (.ok, 0x202, 0x001, []) := by decide
theorem test_M5_ldFont : bytesAfterStep (withRegs (start 0xF429) [(4, 0xFF)]) 0 0 =
    (.ok, 0x202, 0x4FB, []) := by decide
theorem test_M7_ldBcd : bytesAfterStep (withI (withRegs (start 0xF533) [(5, 0xEA)]) 0x300) 0x2FF 5 =
    (.ok, 0x202, 0x300, [0, 2, 3, 4, 0]) := by decide
theorem test_M10_ldBcd_fault :
    (bytesAfterStep (withI (withRegs (start 0xF533) [(5, 0xFF)]) 0xFFE) 0xFFE 2,
      (stateAfterStep (withI (withRegs (start 0xF533) [(5, 0xFF)]) 0xFFE)).faultRecord) =
    ((.fault .memoryOutOfRange, 0x200, 0xFFE, [0, 0]), ⟨.memoryOutOfRange, 0x200, 0xF533, 0x1000⟩) := by decide
theorem test_M11_storeRegs :
    bytesAfterStep (withI (withRegs (start 0xF255) [(0, 1), (1, 2), (2, 3), (3, 9)]) 0x400) 0x400 4 =
    (.ok, 0x202, 0x400, [1, 2, 3, 0]) := by decide
theorem test_M13_storeRegs_fault : stackAfterStep (withI (start 0xFF55) 0xFF1) =
    (.fault .memoryOutOfRange, 0, 0x200, ⟨.memoryOutOfRange, 0x200, 0xFF55, 0x1000⟩) := by decide
theorem test_M14_loadRegs :
    afterStep (withI (withRegs (withBytes (start 0xF265) 0x400 [7, 8, 9, 10]) [(3, 0x33)]) 0x400)
      [0, 1, 2, 3] = (.ok, 0x202, [7, 8, 9, 0x33]) := by decide
theorem test_M16_loadRegs_fault : stackAfterStep (withI (start 0xF065) 0x1000) =
    (.fault .memoryOutOfRange, 0, 0x200, ⟨.memoryOutOfRange, 0x200, 0xF065, 0x1000⟩) := by decide

/-! ### Display (D); D2 on a 16 x 4 grid, its coordinates reduced to match -/

/-- The sprite C3 81 at 0x300. -/
def sprite (op : Word) : State := withI (withBytes (start op) 0x300 [0xC3, 0x81]) 0x300

theorem test_D2_drw_wraps : litAfterStep (withGrid (withRegs (sprite 0xD012) [(0, 14), (1, 3)]) 16 4 []) =
    ([(5, 0), (14, 0), (4, 3), (5, 3), (14, 3), (15, 3)], 0) := by decide
theorem test_D6_drw_collision :
    litAfterStep (withGrid (withI (withBytes (start 0xD011) 0x300 [0x80]) 0x300) 16 4 [(0, 0)]) =
    ([], 1) := by decide
theorem test_D9_cls :
    litAfterStep (withGrid (withRegs (start 0x00E0) [(15, 4)]) 16 4 [(1, 1), (15, 3)]) = ([], 4) := by decide

/-! ### Keypad and timers (K) -/

theorem test_K1_skp : afterStep ((withRegs (start 0xE59E) [(5, 3)]).setKey 3 true) [] = (.ok, 0x204, []) := by decide
theorem test_K5_skp_fault : stackAfterStep (withRegs (start 0xE59E) [(5, 0x10)]) =
    (.fault .keyOutOfRange, 0, 0x200, ⟨.keyOutOfRange, 0x200, 0xE59E, 0x10⟩) := by decide
theorem test_K3_sknp : afterStep (withRegs (start 0xE5A1) [(5, 3)]) [] = (.ok, 0x204, []) := by decide
theorem test_K4_sknp : afterStep ((withRegs (start 0xE5A1) [(5, 3)]).setKey 3 true) [] = (.ok, 0x202, []) := by decide
theorem test_K6_ldKey : afterStep (start 0xF20A) [2] = (.waitingKey, 0x200, [0]) := by decide
theorem test_K7_ldKey : afterStep (((start 0xF20A).setKey 7 true).setKey 9 true) [2] = (.ok, 0x202, [7]) := by decide
theorem test_K9_ldFromDt : afterStep ((start 0xF307).setDt 0x3C) [3] = (.ok, 0x202, [0x3C]) := by decide
theorem test_K10_ldDt : (stateAfterStep (withRegs (start 0xF315) [(3, 0x3C)])).dt = 0x3C := by decide
theorem test_K11_ldSt : (stateAfterStep (withRegs (start 0xF318) [(3, 0x05)])).st = 0x05 := by decide

/-! ### Transactions (H) -/

/-- The state of H3 and H4: after F7. -/
def afterF7 : State := stateAfterStep (withCalls (start 0x2400) 16 0x202)

theorem test_H1_tick :
    ((tickTimers ((State.reset.setDt 2).setSt 0)).dt, (tickTimers ((State.reset.setDt 2).setSt 0)).st) = (1, 0) := by decide
theorem test_H3_refused : (transact .step afterF7).1 = .stepped .refusedFaulted := by decide
theorem test_H4_skip : ((transact .skipFaulted afterF7).1, stackAfterStep (transact .skipFaulted afterF7).2) =
    (.ok, .okUnrecognized, 16, 0x204, ⟨.stackOverflow, 0x200, 0x2400, 0⟩) := by decide
theorem test_H5_press_then_step : afterStep (transact (.press 7) (start 0xF20A)).2 [2] = (.ok, 0x202, [7]) := by decide
theorem test_H6_levels : (runTransactions [.press 3, .press 3, .release 3] State.reset).isPressed 3 = false := by decide
theorem test_H7_press_rejected : (transact (.press 16) State.reset).1 = .rejected := by decide
theorem test_H8_skip_rejected : (transact .skipFaulted State.reset).1 = .rejected := by decide

/-! ### Witnesses: for each obligation, states and operands that meet its hypotheses, clause by clause, at their bounds -/

theorem witness_DecodeInvertsEncode : (Instr.drw 15 15 15).wf = true := by decide

theorem witness_DecodeReturnsTheMatchingRow :
    (0xF000, 0xD000) ∈ opcodeMap ∧ decodeWord 0xDFFF = some (.drw 15 15 15) := by decide

theorem witness_StepFetchesDecodesExecutes_refused : afterF7.faulted = true := by decide

theorem witness_StepFetchesDecodesExecutes_fetchFault :
    State.reset.faulted = false ∧ 0xFFE < ({ State.reset with pc := 0xFFF } : State).pc.toNat := by decide

theorem witness_StepFetchesDecodesExecutes_instruction :
    (startAt 0xFFE 0x6142).faulted = false ∧ (startAt 0xFFE 0x6142).pc.toNat = 0xFFE ∧
      (0x6142 : Word).toNat =
        ((startAt 0xFFE 0x6142).readByte 0xFFE).toNat * 256 + ((startAt 0xFFE 0x6142).readByte 0xFFF).toNat ∧
        decodeWord 0x6142 = some (.ldImm 1 0x42) := by decide

theorem witness_StepFetchesDecodesExecutes_unrecognized :
    (start 0x5121).faulted = false ∧ (start 0x5121).pc.toNat ≤ 0xFFE ∧
      (0x5121 : Word).toNat = ((start 0x5121).readByte 0x200).toNat * 256 + ((start 0x5121).readByte 0x201).toNat ∧
        decodeWord 0x5121 = none := by decide

theorem witness_StepRunsTheInstructionAtPc :
    (startAt 0xFFE 0xDFFF).faulted = false ∧ (Instr.drw 15 15 15).wf = true ∧ (startAt 0xFFE 0xDFFF).pc.toNat = 0xFFE ∧
      (startAt 0xFFE 0xDFFF).readByte 0xFFE = highByte (encode (.drw 15 15 15)) ∧
        (startAt 0xFFE 0xDFFF).readByte 0xFFF = lowByte (encode (.drw 15 15 15)) ∧
          Memory.wf (startAt 0xFFE 0xDFFF).mem := by decide

theorem witness_UnrecognizedWordIsANoOp :
    (start 0x5121).faulted = false ∧ (start 0x5121).fetch = some 0x5121 ∧ decodeWord 0x5121 = none := by decide

theorem witness_StepResultsAreTheFive :
    [start 0x6A5C, start 0x0000, start 0xF20A, start 0x00EE, afterF7].map stepResult =
      [.ok, .okUnrecognized, .waitingKey, .fault .stackUnderflow, .refusedFaulted] := by decide

/-- A step that completes, one that meets an unrecognized word and one that faults. -/
theorem witness_ProgramCounterPolicy :
    (∃ t, step (start 0x1FFF) = .next t ∧ t.faulted = false ∧ (start 0x1FFF).nextInstr = some (.jp 0xFFF)) ∧
      (∃ t, step (start 0x5121) = .next t ∧ (start 0x5121).fetch = some 0x5121 ∧ decodeWord 0x5121 = none) ∧
        ∃ t, step (start 0x00EE) = .next t ∧ t.faulted = true :=
  ⟨⟨_, rfl, by decide, by decide⟩, ⟨_, rfl, by decide, by decide⟩, _, rfl, by decide⟩

/-- A fetch fault and an instruction's fault. -/
theorem witness_FaultEntryChangesOnlyTheLatch :
    (∃ t, step { State.reset with pc := 0xFFF } = .next t ∧ t.faulted = true ∧ t.faultRecord.cause = .fetchOutOfRange) ∧
      ∃ t, step (start 0x00EE) = .next t ∧ t.faulted = true ∧ t.faultRecord.cause ≠ .fetchOutOfRange :=
  ⟨⟨_, rfl, by decide, by decide⟩, _, rfl, by decide, by decide⟩

/-- Each of the five causes is raised. -/
theorem witness_FaultsAreThoseOfTheTable :
    [{ State.reset with pc := 0xFFF }, withCalls (start 0x2400) 16 0x202, start 0x00EE, withI (start 0xF065) 0x1000,
      withRegs (start 0xE5A1) [(5, 0x10)]].map stepResult =
      [.fault .fetchOutOfRange, .fault .stackOverflow, .fault .stackUnderflow, .fault .memoryOutOfRange,
        .fault .keyOutOfRange] := by decide

theorem witness_BlockAccessFaultsAtTheLowestAddress_fault :
    Spec.blockLength (.storeRegs 15) = some 16 ∧ 15 < 16 ∧ 0xFFF < (withI State.reset 0xFF1).i.toNat + 15 ∧
      ∀ j, j < 15 → (withI State.reset 0xFF1).i.toNat + j ≤ 0xFFF := by decide

theorem witness_BlockAccessFaultsAtTheLowestAddress_completes :
    Spec.blockLength (.storeRegs 15) = some 16 ∧ (∀ j, j < 16 → (withI State.reset 0xFF0).i.toNat + j ≤ 0xFFF) ∧
      Spec.blockLength (.drw 0 0 0) = some 0 := by decide

theorem witness_FaultedBlockRefusesStepsUntilSkipOrReset : afterF7.faulted = true := by decide

theorem witness_ReturnPopsTheStack :
    State.reset.sp.val = 0 ∧ (withCalls State.reset 1 0x202).sp.val = 1 ∧ (withCalls State.reset 16 0x202).sp.val = 16 := by
  decide

theorem witness_CallPushesTheReturnAddress :
    (withCalls State.reset 16 0x202).sp.val = 16 ∧ (withCalls State.reset 15 0x202).sp.val = 15 := by decide

theorem witness_ReturnUndoesCall : (withCalls State.reset 15 0x202).sp.val < 16 := by decide

theorem witness_SkipsOnKeys :
    15 < ((withRegs State.reset [(5, 0x10)]).reg 5).toNat ∧ ((withRegs State.reset [(5, 0x0F)]).reg 5).toNat = 15 := by
  decide

theorem witness_BcdStoresThreeDigits :
    Memory.wf State.reset.mem ∧ (withI State.reset 0xFFD).i.toNat + 2 = 0xFFF ∧
      0xFFF < (withI State.reset 0xFFE).i.toNat + 2 := by decide

theorem witness_StoreRegistersWritesTheBlock :
    Memory.wf State.reset.mem ∧ (withI State.reset 0xFF0).i.toNat + (15 : Reg).val = 0xFFF ∧
      0xFFF < (withI State.reset 0x1000).i.toNat + (0 : Reg).val := by decide

theorem witness_LoadRegistersReadsTheBlock :
    (withI State.reset 0xFFF).i.toNat + (0 : Reg).val = 0xFFF ∧
      0xFFF < (withI State.reset 0xFF1).i.toNat + (15 : Reg).val := by decide

theorem witness_LoadAfterStoreRestoresRegisters :
    Memory.wf State.reset.mem ∧ (withI State.reset 0xFF0).i.toNat + (15 : Reg).val ≤ 0xFFF ∧
      ∃ t, exec (.storeRegs 15) (withI State.reset 0xFF0) = .next t ∧ t.i = (withI State.reset 0xFF0).i :=
  ⟨by decide, by decide, _, rfl, by decide⟩

/-- Blocks that end at 0xFFF, of one register and of sixteen, and the last address that can be fetched. -/
theorem witness_StoredBytesAreFetchedNext :
    Memory.wf (start 0xF533).mem ∧ (withI (start 0xF533) 0xFFD).i.toNat + 2 = 0xFFF ∧
      (withI (start 0xF055) 0xFFF).i.toNat + (0 : Reg).val = 0xFFF ∧
        (withI (start 0xFF55) 0xFF0).i.toNat + (15 : Reg).val = 0xFFF ∧ (0xFFE : Word).toNat = 0xFFE := by decide

/-- The clauses meet at the ends of a block: the fetch at `I + 2` of Fx33, and the one that straddles the end of F055. -/
theorem witness_StoredBytesAreFetchedNext_ends :
    (({ stateAfterStep (withI (withRegs (start 0xF533) [(5, 234)]) 0x300) with pc := 0x302 } : State).fetch = some 0x0400) ∧
      ({ stateAfterStep (withI (withRegs (start 0xF055) [(0, 7)]) 0x300) with pc := 0x2FF } : State).fetch = some 0x0007 := by
  decide

theorem witness_MemoriesThatReadAlikeAreEqual : Memory.wf [(0x000, 1), (0xFFF, 2)] := by decide

/-- A display of 8 x 15, the smallest on which no sprite meets itself, and a sprite at the end of the memory. -/
def smallDisplay (lit : List (Nat × Nat)) : State :=
  withGrid (withI (withBytes (start 0xD01F) 0xFFF [0x80]) 0xFFF) 8 15 lit

theorem smallDisplay_inv : (smallDisplay []).Inv := ⟨by decide, by decide, by decide, by decide⟩

theorem smallDisplay_lit_inv : (smallDisplay [(0, 0)]).Inv := ⟨by decide, by decide, by decide, by decide⟩

/-- Both bounds of the range, the block that ends at 0xFFF and the one that ends at 0x1000, and n = 0. -/
theorem witness_DrawXorsTheSpriteAndReportsCollision :
    (smallDisplay []).Inv ∧ (smallDisplay []).i.toNat + 1 = 0x1000 ∧ 0x1000 < (smallDisplay []).i.toNat + 2 ∧
      (15 : Nat) ≤ 15 ∧ Spec.hits (smallDisplay []) 0 1 1 0 0 = 1 :=
  ⟨smallDisplay_inv, by decide, by decide, by decide, by decide⟩

/-- A draw that collides. -/
theorem witness_DrawXorsTheSpriteAndReportsCollision_collides :
    (smallDisplay [(0, 0)]).Inv ∧ Spec.Collides (smallDisplay [(0, 0)]) 0 1 1 :=
  ⟨smallDisplay_lit_inv, 0, 0, by decide, by decide, .inl (by decide)⟩

/-- As many rows as the display has, the block ending at 0xFFF. -/
theorem witness_LargeGridTogglesNoPixelTwice :
    (withI (smallDisplay []) 0xFF1).Inv ∧ (15 : Nat) ≤ 15 ∧ 8 ≤ (withI (smallDisplay []) 0xFF1).params.displayW ∧
      15 ≤ (withI (smallDisplay []) 0xFF1).params.displayH ∧ (withI (smallDisplay []) 0xFF1).i.toNat + 15 = 0x1000 :=
  ⟨⟨by decide, by decide, by decide, by decide⟩, by decide, by decide, by decide, by decide⟩

/-- A pixel the sprite covers, lit in one state and not in the other, and one it does not cover. -/
theorem witness_LargeGridTogglesNoPixelTwice_covers :
    Spec.Covers (smallDisplay [(0, 0)]) 0 1 1 0 0 ∧ (smallDisplay [(0, 0)]).pixel 0 0 = true ∧
      (smallDisplay []).pixel 0 0 = false ∧ ¬Spec.Covers (smallDisplay []) 0 1 1 0 1 := by
  refine ⟨⟨0, 0, by decide, by decide, by decide, by decide, by decide⟩, by decide, by decide, ?_⟩
  rintro ⟨r, c, hr, -, -, -, h⟩
  obtain rfl : r = 0 := by omega
  exact absurd h (by decide)

/-- n = 0 with `I` outside the memory. -/
theorem witness_DrawingTwiceRestoresTheDisplay_empty :
    (withI (smallDisplay []) 0xFFFF).Inv ∧ (0 : Nat) = 0 ∧ 0x1000 < (withI (smallDisplay []) 0xFFFF).i.toNat :=
  ⟨⟨by decide, by decide, by decide, by decide⟩, by decide, by decide⟩

theorem witness_DrawingTwiceRestoresTheDisplay :
    (smallDisplay []).Inv ∧ (1 : Nat) ≤ 15 ∧ (smallDisplay []).i.toNat + 1 ≤ 0x1000 ∧ (0 : Reg) ≠ 15 ∧ (1 : Reg) ≠ 15 ∧
      8 ≤ (smallDisplay []).params.displayW ∧ 1 ≤ (smallDisplay []).params.displayH ∧
        (∀ px py, (smallDisplay []).pixel px py = false) ∧ Spec.spriteBit (smallDisplay []) 0 0 = true := by
  refine ⟨smallDisplay_inv, by decide, by decide, by decide, by decide, by decide, by decide, fun px py => ?_, by decide⟩
  change Grid.get (Grid.unlit 8 15) px py = false
  simp only [Grid.get, Grid.unlit, List.getElem?_replicate]
  split
  · simp only [Option.getD_some, List.getElem?_replicate]
    split <;> rfl
  · rfl

theorem witness_KeyWaitLoadsTheLowestKey_waits :
    (∀ k, k < 16 → (start 0xF20A).isPressed k = false) ∧ (start 0xF20A).faulted = false ∧
      (start 0xF20A).nextInstr = some (.ldKey 2) := by decide

theorem witness_KeyWaitLoadsTheLowestKey_loads :
    (State.reset.setKey 15 true).isPressed 15 = true ∧ ∀ j, j < 15 → (State.reset.setKey 15 true).isPressed j = false := by
  decide

theorem witness_HostErrorsChangeNothing :
    15 < 16 ∧ 0xFFF < 0x1000 ∧ State.reset.faulted = false ∧ afterF7.faulted = true := by decide

theorem witness_PressAndReleaseSetOneLatch : 15 < 16 ∧ (State.reset.setKey 15 true).isPressed 15 = true := by decide

theorem witness_LoadWritesOneByteAndReadsChangeNothing :
    Memory.wf (start 0x6A5C).mem ∧ 0xFFF ≤ 0xFFF ∧ ((transact (.load 0xFFF 7) (start 0x6A5C)).2).readByte 0xFFF = 7 := by
  decide

/-- Reset of a state that every clause of the rule changes. -/
theorem witness_ResetZeroesTheState :
    (transact .reset afterF7).2.faulted = false ∧ afterF7.faulted = true ∧ (transact .reset afterF7).2.sp.val = 0 ∧
      (transact .reset afterF7).2.readByte 0x200 = 0 ∧ afterF7.readByte 0x200 = 0x24 := by decide

theorem witness_ResetSatisfiesTheInvariant : Params.wf { displayW := 1, displayH := 1 } ∧ Params.wf Params.default := by
  decide

theorem witness_StepKeepsTheInvariant :
    (smallDisplay []).Inv ∧ ∃ t, step (smallDisplay []) = .next t :=
  ⟨smallDisplay_inv, _, rfl⟩

theorem witness_TransactionsKeepTheInvariant : (smallDisplay [(0, 0)]).Inv := smallDisplay_lit_inv

/-- A full stack of the highest return addresses the bound admits, `PC` at its own bound. -/
theorem witness_StepKeepsPcBounds :
    ({ withCalls State.reset 16 0x1000 with pc := 0x10FE } : State).PcInv ∧
      (∃ t, step { withCalls State.reset 16 0x1000 with pc := 0x10FE } = .next t) ∧ (0x10FE : Word).toNat ≤ 0x10FE :=
  ⟨⟨by decide, by decide⟩, ⟨_, rfl⟩, by decide⟩

/-- The parameters of M12: `LOADSTORE_INCREMENTS_I = true`. -/
def incrementing (s : State) : State := { s with params := { s.params with loadstoreIncrementsI := true } }

/-- For every piece of state that instructions write, one that changes it; `I` by Fx55 as in M12. -/
theorem witness_EachPieceOfStateHasItsWriters :
    (∃ t, exec (.ldBcd 0) (withRegs State.reset [(0, 1)]) = .next t ∧ t.mem ≠ State.reset.mem) ∧
      (∃ t, exec (.storeRegs 0) (withRegs State.reset [(0, 1)]) = .next t ∧ t.mem ≠ State.reset.mem) ∧
        (∃ t, exec .cls (smallDisplay [(0, 0)]) = .next t ∧ t.pix ≠ (smallDisplay [(0, 0)]).pix) ∧
          (∃ t, exec (.call 0x300) (start 0x2300) = .next t ∧ t.stack ≠ (start 0x2300).stack ∧ t.sp ≠ (start 0x2300).sp) ∧
            (∃ t, exec (.ldI 0x300) State.reset = .next t ∧ t.i ≠ State.reset.i) ∧
              (∃ t, exec (.storeRegs 2) (incrementing (withI State.reset 0x400)) = .next t ∧ t.i = 0x403) ∧
              (∃ t, exec (.ldDt 0) (withRegs State.reset [(0, 1)]) = .next t ∧ t.dt ≠ State.reset.dt) ∧
                (∃ t, exec (.ldSt 0) (withRegs State.reset [(0, 1)]) = .next t ∧ t.st ≠ State.reset.st) ∧
                  ∃ t, exec (.rnd 0 0) State.reset = .next t ∧ t.draws ≠ State.reset.draws :=
  ⟨⟨_, rfl, by decide⟩, ⟨_, rfl, by decide⟩, ⟨_, rfl, by decide⟩, ⟨_, rfl, by decide, by decide⟩, ⟨_, rfl, by decide⟩,
    ⟨_, rfl, by decide⟩, ⟨_, rfl, by decide⟩, ⟨_, rfl, by decide⟩, _, rfl, by decide⟩

/-- A register written, `PC` moved, and a fault entry. -/
theorem witness_EachPieceOfStateHasItsWriters_latch :
    (∃ t, exec (.ldImm 3 7) State.reset = .next t ∧ t.reg 3 ≠ State.reset.reg 3 ∧ t.pc ≠ State.reset.pc) ∧
      ∃ t, exec .ret State.reset = .next t ∧ t.faulted ≠ State.reset.faulted ∧
        t.faultRecord ≠ State.reset.faultRecord ∧ t.pc = State.reset.pc :=
  ⟨⟨_, rfl, by decide, by decide⟩, _, rfl, by decide, by decide, by decide⟩

/-- Two states that agree on V1 and V2, which 8124 reads, and differ in V3. -/
theorem witness_RegistersReadAndWrittenAreThoseOfTheTable :
    (∃ t, exec (.addReg 1 2) State.reset = .next t) ∧ Spec.writes (.addReg 1 2) 3 = false ∧
      (∀ r, Spec.reads (.addReg 1 2) State.reset.params r = true →
        (withRegs State.reset [(3, 7)]).reg r = State.reset.reg r) ∧
        (withRegs State.reset [(3, 7)]).reg 3 ≠ State.reset.reg 3 :=
  ⟨⟨_, rfl⟩, by decide, by decide, by decide⟩

/-- Two states that differ in the sound timer, in a stack entry above `SP` and in the record. -/
theorem witness_UnobservableStateStaysUnobservable :
    Spec.SameToPrograms (start 0x6A5C)
      { start 0x6A5C with
        st := 5
        stack := (start 0x6A5C).stack.set 0 0x202
        faultRecord := ⟨.stackOverflow, 0x200, 0x2400, 0⟩ } ∧
      ∃ t, step (start 0x6A5C) = .next t :=
  ⟨⟨rfl, fun j hj => absurd hj (by rw [show (start 0x6A5C).sp.val = 0 by decide]; exact Nat.not_lt_zero j)⟩,
    _, rfl⟩

theorem witness_ZeroSlideReachesProgramBase :
    State.reset.faulted = false ∧ State.reset.pc.toNat = 0 ∧ (∀ a, a < 0x200 → State.reset.readByte a = 0) ∧ 256 ≤ 256 :=
  ⟨by decide, by decide, fun _ _ => rfl, by decide⟩

theorem witness_IdleStatesDoNotChange_jump :
    (start 0x1200).faulted = false ∧ (start 0x1200).nextInstr = some (.jp 0x200) ∧
      (0x200 : Addr).toNat = (start 0x1200).pc.toNat := by decide

theorem witness_IdleStatesDoNotChange_keyWait :
    (start 0xF20A).nextInstr = some (.ldKey 2) ∧ ∀ k, k < 16 → (start 0xF20A).isPressed k = false := by decide

/-- A call at the deepest level that still succeeds, at the last address that can be fetched. -/
theorem witness_RespectfulStepIsSafe_call :
    (withCalls (startAt 0xFFE 0x2400) 15 0x202).faulted = false ∧
      (withCalls (startAt 0xFFE 0x2400) 15 0x202).pc.toNat ≤ 0xFFE ∧
        (withCalls (startAt 0xFFE 0x2400) 15 0x202).nextInstr = some (.call 0x400) ∧
          (withCalls (startAt 0xFFE 0x2400) 15 0x202).sp.val < 16 := by decide

/-- A block that ends at 0xFFF, and the highest key. -/
theorem witness_RespectfulStepIsSafe_block :
    (withI (start 0xFF55) 0xFF0).nextInstr = some (.storeRegs 15) ∧
      (∀ j, j < 16 → (withI (start 0xFF55) 0xFF0).i.toNat + j < 0x1000) ∧
        (withRegs (start 0xE59E) [(5, 15)]).nextInstr = some (.skp 5) ∧
          ((withRegs (start 0xE59E) [(5, 15)]).reg 5).toNat < 16 := by decide

end Sys2Proof.Tests
end

section
/-! The parameters and PC of a reset instance, and the statement of 00_scope.md R6 about the default one. -/

namespace Sys2Proof

/-- The defaults of 00_scope.md R6, written out. -/
theorem Params.default_eq : Params.default = ⟨64, 32, 0x000, 0x000, .noBorrow, .vx, false⟩ := rfl

namespace Machine

@[simp] theorem State.resetOf_params (p : Params) (draws : Nat) : (State.resetOf p draws).params = p := rfl

@[simp] theorem State.resetOf_pc (p : Params) (draws : Nat) : (State.resetOf p draws).pc = p.resetPc := rfl

theorem State.reset_params : State.reset.params = Params.default :=
  State.resetOf_params Params.default 0

theorem State.reset_pc : State.reset.pc = Params.default.resetPc :=
  State.resetOf_pc Params.default 0

/-- The reset state is the reset of the instance whose parameters it carries. -/
theorem State.reset_eq_resetOf_params : State.reset = State.resetOf State.reset.params 0 := by
  rw [State.reset_params, State.reset]

end Machine

open Machine

/-- Settles O45: the core's reset state is `State.reset`, the reset of `Params.default`, and its PC is their
`resetPc`. -/
theorem resetStateHasTheDefaultParameters : Obligations.ResetStateHasTheDefaultParameters := by
  unfold Obligations.ResetStateHasTheDefaultParameters
  refine ⟨?core, ?params, ?pc⟩
  case core => exact State.reset_eq_resetOf_params
  case params => exact State.reset_params.trans Params.default_eq
  case pc => rw [State.reset_pc, Params.default_eq]; rfl

end Sys2Proof
end

section
/-! What one instruction answers, as two functions of the state: the fault it raises, if any, and the state in which it
completes otherwise (40_step.md R94). Every statement about all instructions reads these two and not `exec`'s arms. -/

namespace Sys2Proof.Machine

/-- The fault of an access to `k` bytes from `I` on (43_index_memory.md R156). -/
def blockFault (k : Nat) (s : State) : Option (FaultCause × Nat) :=
  (firstOutOfRange s.i.toNat k).map (.memoryOutOfRange, ·)

/-- The fault of an access to the key that `Vx` names (45_keypad_timers.md R191, R192). -/
def keyFault (x : Reg) (s : State) : Option (FaultCause × Nat) :=
  if 15 < (s.reg x).toNat then some (.keyOutOfRange, (s.reg x).toNat) else none

/-- The cause and the recorded address of the fault that the instruction raises, if it raises one (60_exceptions.md R211). -/
def instrFault (i : Instr) (s : State) : Option (FaultCause × Nat) :=
  match i with
  | .ret => if s.sp = 0 then some (.stackUnderflow, 0) else none
  | .call _ => if s.sp = 16 then some (.stackOverflow, 0) else none
  | .drw _ _ n => blockFault n s
  | .ldBcd _ => blockFault 3 s
  | .storeRegs x | .loadRegs x => blockFault (x.val + 1) s
  | .skp x | .sknp x => keyFault x s
  | .cls | .jp _ | .seImm _ _ | .sneImm _ _ | .seReg _ _ | .ldImm _ _ | .addImm _ _ | .ldReg _ _ | .orReg _ _
  | .andReg _ _ | .xorReg _ _ | .addReg _ _ | .subReg _ _ | .shr _ _ | .subn _ _ | .shl _ _ | .sneReg _ _ | .ldI _
  | .jpV0 _ | .rnd _ _ | .ldFromDt _ | .ldKey _ | .ldDt _ | .ldSt _ | .addI _ | .ldFont _ => none

/-- The state in which the instruction completes. The four instructions whose effect is a search or a block move are written
as the record of the pieces they change, so that every other piece is the old one by computation. -/
def completed (i : Instr) (s : State) : State :=
  match i with
  | .cls => s.clearDisplay.advance
  | .ret => s.popToPc
  | .jp nnn => s.jump (zextAddr nnn)
  | .call nnn => (s.push (s.pc + 2)).jump (zextAddr nnn)
  | .seImm x kk => s.skipIf (s.reg x == kk)
  | .sneImm x kk => s.skipIf (s.reg x != kk)
  | .seReg x y => s.skipIf (s.reg x == s.reg y)
  | .ldImm x kk => (s.setReg x kk).advance
  | .addImm x kk => (s.setReg x (s.reg x + kk)).advance
  | .ldReg x y => (s.setReg x (s.reg y)).advance
  | .orReg x y => (s.setReg x (s.reg x ||| s.reg y)).advance
  | .andReg x y => (s.setReg x (s.reg x &&& s.reg y)).advance
  | .xorReg x y => (s.setReg x (s.reg x ^^^ s.reg y)).advance
  | .addReg x y => (s.setRegAndFlag x (s.reg x + s.reg y) (carryFlag (s.reg x) (s.reg y))).advance
  | .subReg x y =>
    (s.setRegAndFlag x (s.reg x - s.reg y) (borrowFlag s.params.borrowFlagMode (s.reg x) (s.reg y))).advance
  | .shr x y => (s.setRegAndFlag x (shiftOperand s x y >>> 1) (shiftedOutRight (shiftOperand s x y))).advance
  | .subn x y =>
    (s.setRegAndFlag x (s.reg y - s.reg x) (borrowFlag s.params.borrowFlagMode (s.reg y) (s.reg x))).advance
  | .shl x y => (s.setRegAndFlag x (shiftOperand s x y <<< 1) (shiftedOutLeft (shiftOperand s x y))).advance
  | .sneReg x y => s.skipIf (s.reg x != s.reg y)
  | .ldI nnn => (s.setI (zextAddr nnn)).advance
  | .jpV0 nnn => s.jump (indexedTarget nnn s)
  | .rnd x kk => (s.setReg x (Config.rand8 s.draws &&& kk)).countDraw.advance
  | .drw x y n =>
    let d := drawSprite s.params (s.reg x) (s.reg y) (spriteRows s n) s.pix
    ((s.setPix d.1).setReg VF (collisionFlag d.2)).advance
  | .skp x => s.skipIf (s.isPressed (s.reg x).toNat)
  | .sknp x => s.skipIf (!s.isPressed (s.reg x).toNat)
  | .ldFromDt x => (s.setReg x s.dt).advance
  | .ldKey x =>
    { s with
      v := s.lowestKey.elim s.v fun k => s.v.set x (u8 k.val)
      pc := s.lowestKey.elim s.pc fun _ => s.pc + 2 }
  | .ldDt x => (s.setDt (s.reg x)).advance
  | .ldSt x => (s.setSt (s.reg x)).advance
  | .addI x => (s.setI (s.i + zextByte (s.reg x))).advance
  | .ldFont x => (s.setI (glyphAddress s x)).advance
  | .ldBcd x =>
    let t := ((s.storeByte s.i.toNat (bcdHundreds (s.reg x))).storeByte (s.i.toNat + 1) (bcdTens (s.reg x))).storeByte
      (s.i.toNat + 2) (bcdUnits (s.reg x))
    { s with mem := t.mem, pc := s.pc + 2 }
  | .storeRegs x => { s with mem := (s.storeBlock s.i.toNat x).mem, i := (s.afterBlock x).i, pc := s.pc + 2 }
  | .loadRegs x => { s with v := (s.loadBlock s.i.toNat x).v, i := (s.afterBlock x).i, pc := s.pc + 2 }

/-! ### The checks and the block moves in this form -/

theorem checkBlock_eq (op : Word) (k : Nat) (s body : State) :
    checkBlock op k s body = .next ((blockFault k s).elim body fun f => s.enterFault f.1 op f.2) := by
  unfold checkBlock blockFault
  cases firstOutOfRange s.i.toNat k <;> rfl

theorem checkKey_eq (op : Word) (x : Reg) (s body : State) :
    checkKey op (s.reg x).toNat s body = .next ((keyFault x s).elim body fun f => s.enterFault f.1 op f.2) := by
  unfold checkKey keyFault
  split <;> rfl

/-- The move of `I` after a block that changed registers and memory at most. -/
theorem State.advance_afterBlock (s : State) (v : Vector Byte 16) (m : Memory) (x : Reg) :
    (State.afterBlock { s with v := v, mem := m } x).advance =
      { s with v := v, mem := m, i := (s.afterBlock x).i, pc := s.pc + 2 } := by
  unfold State.afterBlock
  split <;> rfl

/-- A store after changes to the memory alone changes the memory alone. -/
theorem State.storeByte_eq_of_memOnly {s t : State} (h : t = { s with mem := t.mem }) (a : Nat) (b : Byte) :
    t.storeByte a b = { s with mem := (t.storeByte a b).mem } := by
  obtain ⟨m, rfl⟩ : ∃ m, t = { s with mem := m } := ⟨_, h⟩
  exact State.storeByte_eq _ a b

theorem execLdBcd_eq (x : Reg) (s : State) :
    execLdBcd x s =
      .next ((blockFault 3 s).elim (completed (.ldBcd x) s) fun f => s.enterFault f.1 (encode (.ldBcd x)) f.2) := by
  have hundreds := State.storeByte_eq s s.i.toNat (bcdHundreds (s.reg x))
  have tens := State.storeByte_eq_of_memOnly hundreds (s.i.toNat + 1) (bcdTens (s.reg x))
  have units := State.storeByte_eq_of_memOnly tens (s.i.toNat + 2) (bcdUnits (s.reg x))
  rw [execLdBcd, checkBlock_eq, units]
  rfl

theorem execStoreRegs_eq (x : Reg) (s : State) :
    execStoreRegs x s = .next ((blockFault (x.val + 1) s).elim (completed (.storeRegs x) s)
      fun f => s.enterFault f.1 (encode (.storeRegs x)) f.2) := by
  rw [execStoreRegs, checkBlock_eq, State.storeBlock_eq, State.advance_afterBlock]
  rfl

theorem execLoadRegs_eq (x : Reg) (s : State) :
    execLoadRegs x s = .next ((blockFault (x.val + 1) s).elim (completed (.loadRegs x) s)
      fun f => s.enterFault f.1 (encode (.loadRegs x)) f.2) := by
  rw [execLoadRegs, checkBlock_eq, (State.loadBlock_spec s _ x).1, State.advance_afterBlock]
  rfl

/-! ### Every instruction in this form -/

/-- An instruction answers the state after its fault entry when it raises a fault, else the state in which it completes. -/
theorem exec_eq (i : Instr) (s : State) :
    exec i s = .next ((instrFault i s).elim (completed i s) fun f => s.enterFault f.1 (encode i) f.2) := by
  cases i with
  | ret =>
    simp only [exec, execRet, instrFault]
    split <;> rfl
  | call nnn =>
    simp only [exec, execCall, instrFault]
    split <;> rfl
  | ldKey x =>
    simp only [exec, execLdKey, instrFault, completed]
    split <;> simp_all [State.setReg, State.advance]
  | drw x y n => exact checkBlock_eq ..
  | skp x => exact checkKey_eq ..
  | sknp x => exact checkKey_eq ..
  | ldBcd x => exact execLdBcd_eq x s
  | storeRegs x => exact execStoreRegs_eq x s
  | loadRegs x => exact execLoadRegs_eq x s
  | _ => rfl

theorem exec_of_instrFault {i : Instr} {s : State} {c : FaultCause} {a : Nat} (h : instrFault i s = some (c, a)) :
    exec i s = .next (s.enterFault c (encode i) a) := by
  rw [exec_eq, h, Option.elim_some]

theorem exec_of_no_fault {i : Instr} {s : State} (h : instrFault i s = none) : exec i s = .next (completed i s) := by
  rw [exec_eq, h, Option.elim_none]

/-- All that an instruction can answer: its completion, or the entry into the fault it raises. -/
theorem exec_answers {i : Instr} {s t : State} (h : exec i s = .next t) :
    (instrFault i s = none ∧ t = completed i s) ∨
      ∃ c a, instrFault i s = some (c, a) ∧ t = s.enterFault c (encode i) a := by
  rcases hf : instrFault i s with _ | ⟨c, a⟩
  · rw [exec_of_no_fault hf, Host.Outcome.next.injEq] at h
    exact .inl ⟨rfl, h.symm⟩
  · rw [exec_of_instrFault hf, Host.Outcome.next.injEq] at h
    exact .inr ⟨c, a, rfl, h.symm⟩

/-- Only the instructions of R211 raise a fault. -/
theorem canFault_of_instrFault {i : Instr} {s : State} (h : instrFault i s ≠ none) : Spec.CanFault i := by
  unfold Spec.CanFault
  cases i with
  | ret | call | drw | skp | sknp | ldBcd | storeRegs | loadRegs => simp
  | _ => exact absurd rfl h

theorem blockFault_cause {k : Nat} {s : State} {f : FaultCause × Nat} (h : blockFault k s = some f) :
    f.1 = .memoryOutOfRange := by
  obtain ⟨a, -, rfl⟩ := Option.map_eq_some_iff.mp h
  rfl

theorem keyFault_cause {x : Reg} {s : State} {f : FaultCause × Nat} (h : keyFault x s = some f) :
    f.1 = .keyOutOfRange := by
  obtain ⟨-, ⟨⟩⟩ := Option.ite_none_right_eq_some.mp h
  rfl

/-- Every fault that an instruction raises names a cause. -/
theorem instrFault_cause_ne_none {i : Instr} {s : State} {f : FaultCause × Nat} (h : instrFault i s = some f) :
    f.1 ≠ .none := by
  cases i with
  | ret | call =>
    obtain ⟨-, ⟨⟩⟩ := Option.ite_none_right_eq_some.mp h
    simp
  | drw | ldBcd | storeRegs | loadRegs => simp [blockFault_cause h]
  | skp | sknp => simp [keyFault_cause h]
  | _ => cases h

/-! ### What every completion leaves alone -/

@[simp] theorem completed_faulted (i : Instr) (s : State) : (completed i s).faulted = s.faulted := by cases i <;> rfl
@[simp] theorem completed_faultRecord (i : Instr) (s : State) : (completed i s).faultRecord = s.faultRecord := by
  cases i <;> rfl
@[simp] theorem completed_params (i : Instr) (s : State) : (completed i s).params = s.params := by cases i <;> rfl
@[simp] theorem completed_key (i : Instr) (s : State) : (completed i s).key = s.key := by cases i <;> rfl

end Sys2Proof.Machine
end

section
/-! Memory and display under every step (10_state.md R31, R32). -/

namespace Sys2Proof.Machine

/-! ### The one form of a memory -/

theorem Memory.read_cons (c : Host.Cell) (m : Memory) (a : Nat) :
    Memory.read (c :: m) a = if c.1 = a then c.2 else Memory.read m a := rfl

@[simp] theorem Memory.read_head (c : Host.Cell) (m : Memory) : Memory.read (c :: m) c.1 = c.2 := by
  simp [Memory.read_cons]

/-- The first cell of one memory is not below the first cell of another that reads alike. -/
theorem Memory.head_le_of_read_eq {c d : Host.Cell} {m m' : Memory} (h : Memory.wf (c :: m)) (h' : Memory.wf (d :: m'))
    (e : ∀ a, Memory.read (c :: m) a = Memory.read (d :: m') a) : d.1 ≤ c.1 := by
  obtain ⟨-, -, hc, -⟩ := wf_cons.mp h
  obtain ⟨hd, -, -, -⟩ := wf_cons.mp h'
  by_contra hlt
  rw [not_le] at hlt
  have below : Memory.read (d :: m') c.1 = 0#8 :=
    read_below (List.forall_mem_cons.mpr ⟨hlt, fun x hx => hlt.trans (hd x hx)⟩)
  exact hc (by rw [← read_head c m, e, below])

/-- Behind equal first cells the rests read alike. -/
theorem Memory.read_tail_eq {c : Host.Cell} {m m' : Memory} (h : Memory.wf (c :: m)) (h' : Memory.wf (c :: m'))
    (e : ∀ a, Memory.read (c :: m) a = Memory.read (c :: m') a) (a : Nat) : Memory.read m a = Memory.read m' a := by
  by_cases ha : c.1 = a
  · rw [← ha, read_below (wf_cons.mp h).1, read_below (wf_cons.mp h').1]
  · simpa only [read_cons, if_neg ha] using e a

/-- A memory with a cell does not read 0 everywhere. -/
theorem Memory.read_ne_zero_of_cons {c : Host.Cell} {m : Memory} (h : Memory.wf (c :: m)) :
    Memory.read (c :: m) c.1 ≠ 0#8 := by
  obtain ⟨-, -, hc, -⟩ := wf_cons.mp h
  rwa [read_head]

/-- Memories in the one form are determined by what they read. -/
theorem Memory.eq_of_read_eq {m m' : Memory} (h : Memory.wf m) (h' : Memory.wf m')
    (e : ∀ a, Memory.read m a = Memory.read m' a) : m = m' := by
  induction m generalizing m' with
  | nil =>
    cases m' with
    | nil => rfl
    | cons d m' => exact absurd (e d.1).symm (read_ne_zero_of_cons h')
  | cons c m ih =>
    cases m' with
    | nil => exact absurd (e c.1) (read_ne_zero_of_cons h)
    | cons d m' =>
      have haddr : c.1 = d.1 := le_antisymm (head_le_of_read_eq h' h fun a => (e a).symm) (head_le_of_read_eq h h' e)
      have hcell : c = d := Prod.ext haddr (by simpa [read_cons, haddr] using e c.1)
      subst hcell
      rw [ih (wf_tail h) (wf_tail h') (read_tail_eq h h' e)]

/-! ### The invariant -/

/-- An instruction keeps the memory's one form: Fx33 and Fx55 alone write it. -/
theorem wf_mem_completed {i : Instr} {s : State} (h : s.mem.wf) : (completed i s).mem.wf := by
  cases i with
  | ldBcd x => exact State.wf_storeByte (State.wf_storeByte (State.wf_storeByte h _ _) _ _) _ _
  | storeRegs x => exact State.wf_storeBlock h _ _
  | _ => exact h

/-- An instruction keeps the display's size: 00E0 and Dxyn alone write it. -/
theorem wf_pix_completed {i : Instr} {s : State} (hp : s.params.wf)
    (h : s.pix.wf s.params.displayW s.params.displayH) :
    (completed i s).pix.wf s.params.displayW s.params.displayH := by
  cases i with
  | cls => exact Grid.wf_unlit _ _
  | drw x y n => exact (drawSprite_spec hp _ _ _ h).1
  | _ => exact h

theorem State.Inv.enterFault {s : State} (h : s.Inv) {c : FaultCause} (hc : c ≠ .none) (op : Word) (a : Nat) :
    (s.enterFault c op a).Inv :=
  ⟨h.params, h.mem, h.pix, fun _ => hc⟩

theorem State.Inv.advance {s : State} (h : s.Inv) : s.advance.Inv := ⟨h.params, h.mem, h.pix, h.latch⟩

theorem State.Inv.completed {s : State} (h : s.Inv) (i : Instr) : (completed i s).Inv where
  params := by simpa using h.params
  mem := wf_mem_completed h.mem
  pix := by simpa using wf_pix_completed h.params h.pix
  latch := by simpa using h.latch

theorem exec_keeps_inv {i : Instr} {s t : State} (h : s.Inv) (ht : exec i s = .next t) : t.Inv := by
  rcases exec_answers ht with ⟨-, rfl⟩ | ⟨c, a, hf, rfl⟩
  · exact h.completed i
  · exact h.enterFault (instrFault_cause_ne_none hf) _ a

theorem step_keeps_inv {s t : State} (h : s.Inv) (ht : step s = .next t) : t.Inv := by
  obtain ⟨-, ⟨-, rfl⟩ | ⟨op, -, ⟨-, rfl⟩ | ⟨i, -, hi⟩⟩⟩ := step_cases ht
  · exact h.enterFault (by simp) _ _
  · exact h.advance
  · exact exec_keeps_inv h hi

end Sys2Proof.Machine

namespace Sys2Proof

open Machine

/-- Settles O47: a fault entry changes the latch alone and names a cause, and a completed instruction writes memory and
display through operations that keep their form. -/
theorem stepKeepsTheInvariant : Obligations.StepKeepsTheInvariant := by
  unfold Obligations.StepKeepsTheInvariant
  exact fun s t h ht => step_keeps_inv h ht

/-- Settles O33, by induction on the first memory: equal reads make equal first cells, and leave equal reads of the rests. -/
theorem memoriesThatReadAlikeAreEqual : Obligations.MemoriesThatReadAlikeAreEqual := by
  unfold Obligations.MemoriesThatReadAlikeAreEqual
  exact fun m m' h h' e => Memory.eq_of_read_eq h h' e

end Sys2Proof
end

section
/-! What the answer of an instruction depends on: the registers of its "reads" column (10_state.md R23) and the pieces named
in each statement. -/

namespace Sys2Proof.Machine

/-- The registers of a state determine its register file. -/
theorem State.v_eq_of_reg_eq {s t : State} (h : ∀ r, t.reg r = s.reg r) : t.v = s.v :=
  Vector.ext fun n hn => h ⟨n, hn⟩

/-! ### What the block moves depend on -/

theorem State.storeByte_mem_congr {s t : State} (h : t.mem = s.mem) (a : Nat) (b : Byte) :
    (t.storeByte a b).mem = (s.storeByte a b).mem := by
  unfold State.storeByte
  split <;> simp only [h]

/-- The memory after a block of stores depends on nothing but the memory before and the registers stored. -/
theorem foldl_storeByte_mem_congr (base : Nat) (l : List Reg) {s t : State} (hm : t.mem = s.mem)
    (hr : ∀ j ∈ l, t.reg j = s.reg j) :
    (l.foldl (fun t j => t.storeByte (base + j.val) (t.reg j)) t).mem =
      (l.foldl (fun t j => t.storeByte (base + j.val) (t.reg j)) s).mem := by
  induction l generalizing s t with
  | nil => exact hm
  | cons k l ih =>
    obtain ⟨hk, hl⟩ := List.forall_mem_cons.mp hr
    refine ih ?_ fun j hj => ?_
    · simp only [hk]
      exact State.storeByte_mem_congr hm _ _
    · rw [State.reg_storeByte, State.reg_storeByte, hl j hj]

theorem State.storeBlock_mem_congr {s t : State} {x : Reg} (hm : t.mem = s.mem) (hr : ∀ j ≤ x, t.reg j = s.reg j)
    (base : Nat) : (t.storeBlock base x).mem = (s.storeBlock base x).mem :=
  foldl_storeByte_mem_congr base _ hm fun j hj => hr j (mem_regsUpTo.mp hj)

/-- The registers after a block of loads depend on nothing but the registers before and the memory. -/
theorem State.loadBlock_v_congr {s t : State} (hm : t.mem = s.mem) (hv : t.v = s.v) (base : Nat) (x : Reg) :
    (t.loadBlock base x).v = (s.loadBlock base x).v := by
  refine State.v_eq_of_reg_eq fun r => ?_
  rw [(State.loadBlock_spec t base x).2, (State.loadBlock_spec s base x).2, State.readByte, State.readByte, hm,
    State.reg_eq_of_v_eq hv]

/-- The move of `I` after a block depends on nothing but the parameters and `I`. -/
theorem State.afterBlock_i_congr {s t : State} (hp : t.params = s.params) (hi : t.i = s.i) (x : Reg) :
    (t.afterBlock x).i = (s.afterBlock x).i := by
  simp only [State.afterBlock, hp]
  split <;> simp only [State.setI_i, hi]

/-! ### Faults, memory and `I` -/

section
variable {i : Instr} {s t : State} (hr : ∀ r, Spec.reads i s.params r = true → t.reg r = s.reg r)
include hr

theorem instrFault_congr (hi : t.i = s.i) (hsp : t.sp = s.sp) : instrFault i t = instrFault i s := by
  cases i with
  | ret | call => simp only [instrFault, hsp]
  | drw | ldBcd | storeRegs | loadRegs => simp only [instrFault, blockFault, hi]
  | skp x | sknp x => simp only [instrFault, keyFault, hr x (by simp [Spec.reads])]
  | _ => rfl

theorem completed_mem_congr (hm : t.mem = s.mem) (hi : t.i = s.i) : (completed i t).mem = (completed i s).mem := by
  cases i with
  | ldBcd x =>
    simp only [completed, hi, hr x (by simp [Spec.reads])]
    exact State.storeByte_mem_congr (State.storeByte_mem_congr (State.storeByte_mem_congr hm _ _) _ _) _ _
  | storeRegs x =>
    simp only [completed, hi]
    exact State.storeBlock_mem_congr hm (fun j hj => hr j (by simpa [Spec.reads] using hj)) _
  | _ => exact hm

theorem completed_i_congr (hp : t.params = s.params) (hi : t.i = s.i) : (completed i t).i = (completed i s).i := by
  cases i with
  | ldI nnn => rfl
  | addI x => simp [completed, hi, hr x (by simp [Spec.reads])]
  | ldFont x => simp [completed, glyphAddress, hp, hr x (by simp [Spec.reads])]
  | storeRegs x | loadRegs x => exact State.afterBlock_i_congr hp hi x
  | _ => exact hi

end

end Sys2Proof.Machine
end

section
/-! What no program observes (10_state.md R38): the sound timer, the stack entries at or above `SP` and the fault record. -/

namespace Sys2Proof.Machine

/-- The two states as one with three pieces replaced. -/
theorem sameToPrograms_iff {s s' : State} : Spec.SameToPrograms s s' ↔
    ∃ st stack rec, s' = { s with st := st, stack := stack, faultRecord := rec } ∧
      ∀ j, j < s.sp.val → State.stackAt { s with stack := stack } j = s.stackAt j := by
  constructor
  · rintro ⟨e, hstack⟩
    refine ⟨_, _, _, e, fun j hj => hstack j hj⟩
  · rintro ⟨st, stack, rec, rfl, hstack⟩
    exact ⟨rfl, hstack⟩

theorem enterFault_sameToPrograms {s s' : State} (h : Spec.SameToPrograms s s') (c : FaultCause) (op : Word) (a : Nat) :
    Spec.SameToPrograms (s.enterFault c op a) (s'.enterFault c op a) := by
  obtain ⟨st, stack, rec, rfl, hstack⟩ := sameToPrograms_iff.mp h
  exact ⟨rfl, hstack⟩

theorem advance_sameToPrograms {s s' : State} (h : Spec.SameToPrograms s s') :
    Spec.SameToPrograms s.advance s'.advance := by
  obtain ⟨st, stack, rec, rfl, hstack⟩ := sameToPrograms_iff.mp h
  exact ⟨rfl, hstack⟩

theorem jump_sameToPrograms {s s' : State} (h : Spec.SameToPrograms s s') (w : Word) :
    Spec.SameToPrograms (s.jump w) (s'.jump w) := by
  obtain ⟨st, stack, rec, rfl, hstack⟩ := sameToPrograms_iff.mp h
  exact ⟨rfl, hstack⟩

/-- A return reads the entry below `SP`, on which the two states agree. -/
theorem popToPc_sameToPrograms {s s' : State} (h : Spec.SameToPrograms s s') (hsp : s.sp ≠ 0) :
    Spec.SameToPrograms s.popToPc s'.popToPc := by
  obtain ⟨st, stack, rec, rfl, hstack⟩ := sameToPrograms_iff.mp h
  have hpos := sp_pos_of_ne hsp
  refine sameToPrograms_iff.mpr ⟨st, stack, rec, ?_, fun j hj => hstack j ?_⟩
  · have htop := hstack (s.sp.val - 1) (by omega)
    simp only [State.popToPc]
    congr 1
  · rw [State.sp_popToPc_val] at hj
    omega

/-- A call writes the same return address above the entries on which the two states agree. -/
theorem push_sameToPrograms {s s' : State} (h : Spec.SameToPrograms s s') (hsp : s.sp ≠ 16) (w : Word) :
    Spec.SameToPrograms (s.push w) (s'.push w) := by
  obtain ⟨e, hstack⟩ := h
  have hsp' : s'.sp = s.sp := by rw [e]
  refine ⟨by rw [e]; rfl, fun j hj => ?_⟩
  rw [State.sp_push_val hsp] at hj
  rw [State.stackAt_push hsp, State.stackAt_push (hsp' ▸ hsp), hsp']
  split
  · rfl
  · exact hstack j (by omega)

theorem reg_sameToPrograms {s s' : State} (h : Spec.SameToPrograms s s') (r : Reg) : s'.reg r = s.reg r :=
  State.reg_eq_of_v_eq (congrArg State.v h.1) r

theorem completed_v_sameToPrograms {s s' : State} (h : Spec.SameToPrograms s s') (i : Instr) :
    (completed i s').v = (completed i s).v := by
  obtain ⟨e, -⟩ := h
  cases i with
  | loadRegs x =>
    have hi : s'.i = s.i := by rw [e]
    simp only [completed, hi]
    exact State.loadBlock_v_congr (by rw [e]) (by rw [e]) _ x
  | _ => rw [e]; rfl

/-- An instruction that completes keeps the two states apart in nothing else; 00EE and 2nnn are the two that touch the
stack, and complete only inside it. -/
theorem completed_sameToPrograms {s s' : State} (h : Spec.SameToPrograms s s') {i : Instr} (hf : instrFault i s = none) :
    Spec.SameToPrograms (completed i s) (completed i s') := by
  have hv := completed_v_sameToPrograms h i
  have hmem : (completed i s').mem = (completed i s).mem :=
    completed_mem_congr (fun r _ => reg_sameToPrograms h r) (by rw [h.1]) (by rw [h.1])
  have hi : (completed i s').i = (completed i s).i :=
    completed_i_congr (fun r _ => reg_sameToPrograms h r) (by rw [h.1]) (by rw [h.1])
  obtain ⟨st, stack, rec, rfl, hstack⟩ := sameToPrograms_iff.mp h
  cases i with
  | ret => exact popToPc_sameToPrograms h fun hsp => by simp [instrFault, hsp] at hf
  | call nnn =>
    exact jump_sameToPrograms (push_sameToPrograms h (fun hsp => by simp [instrFault, hsp] at hf) (s.pc + 2)) _
  | ldBcd x | storeRegs x | loadRegs x =>
    refine ⟨?_, hstack⟩
    rw [← hv, ← hmem, ← hi]
    rfl
  | _ => exact ⟨rfl, hstack⟩

/-- Two answers that differ in what no program observes and, if they are faulted, hold the same record. -/
def SameAnswer (t t' : State) : Prop := Spec.SameToPrograms t t' ∧ (t.faulted = true → t'.faultRecord = t.faultRecord)

theorem enterFault_sameAnswer {s s' : State} (h : Spec.SameToPrograms s s') (c : FaultCause) (op : Word) (a : Nat) :
    SameAnswer (s.enterFault c op a) (s'.enterFault c op a) := by
  refine ⟨enterFault_sameToPrograms h c op a, fun _ => ?_⟩
  rw [h.1]
  rfl

/-- Outside a fault entry the latch stays clear, so there is no record to compare. -/
theorem sameAnswer_of_not_faulted {t t' : State} (h : Spec.SameToPrograms t t') (ht : t.faulted = false) :
    SameAnswer t t' :=
  ⟨h, fun hf => absurd hf (by simp [ht])⟩

theorem exec_sameAnswer {s s' t : State} (h : Spec.SameToPrograms s s') (hs : s.faulted = false) {i : Instr}
    (ht : exec i s = .next t) : ∃ t', exec i s' = .next t' ∧ SameAnswer t t' := by
  have hf' : instrFault i s' = instrFault i s := by
    rw [h.1]
    exact instrFault_congr (fun _ _ => rfl) rfl rfl
  rcases exec_answers ht with ⟨hf, rfl⟩ | ⟨c, a, hf, rfl⟩
  · exact ⟨_, exec_of_no_fault (hf'.trans hf),
      sameAnswer_of_not_faulted (completed_sameToPrograms h hf) ((completed_faulted i s).trans hs)⟩
  · exact ⟨_, exec_of_instrFault (hf'.trans hf), enterFault_sameAnswer h c _ a⟩

/-! ### The step and its result -/

theorem fetch_sameToPrograms {s s' : State} (h : Spec.SameToPrograms s s') : s'.fetch = s.fetch := by
  rw [h.1]
  rfl

theorem step_sameAnswer {s s' t : State} (h : Spec.SameToPrograms s s') (ht : step s = .next t) :
    ∃ t', step s' = .next t' ∧ SameAnswer t t' := by
  have hfetch := fetch_sameToPrograms h
  have hfaulted : s'.faulted = s.faulted := by rw [h.1]
  have hpc : s'.pc = s.pc := by rw [h.1]
  obtain ⟨hs, ⟨hnone, rfl⟩ | ⟨op, hop, ⟨hdec, rfl⟩ | ⟨i, hdec, hi⟩⟩⟩ := step_cases ht
  · refine ⟨s'.enterFault .fetchOutOfRange 0 s'.pc.toNat, ?_, hpc ▸ enterFault_sameAnswer h _ _ _⟩
    simp [step, runStep, hfaulted, hs, hfetch, hnone, raiseFault]
  · refine ⟨s'.advance, ?_, sameAnswer_of_not_faulted (advance_sameToPrograms h) hs⟩
    simp [step, runStep, hfaulted, hs, hfetch, hop, hdec, execUnrecognized]
  · rw [step_of_decode (hfaulted.trans hs) (hfetch.trans hop) hdec]
    exact exec_sameAnswer h hs hi

theorem step_of_faulted {s : State} (h : s.faulted = true) : step s = .refused .refusedFaulted := by
  simp [step, runStep, h]

/-- A step of a block that is not faulted answers a next state. -/
theorem step_of_not_faulted {s : State} (h : s.faulted = false) : ∃ t, step s = .next t := by
  unfold step runStep
  rw [h, if_neg Bool.false_ne_true]
  split
  · exact ⟨_, rfl⟩
  · split
    · exact ⟨_, rfl⟩
    · exact ⟨_, exec_eq _ s⟩

theorem faulted_of_step_refused {s : State} {r : Refusal} (h : step s = .refused r) : s.faulted = true := by
  by_contra hs
  obtain ⟨t, ht⟩ := step_of_not_faulted (eq_false_of_ne_true hs)
  rw [ht] at h
  cases h

theorem waitsForKey_sameToPrograms {s s' : State} (h : Spec.SameToPrograms s s') (i : Instr) :
    waitsForKey i s' = waitsForKey i s := by
  rw [h.1]
  cases i <;> rfl

theorem stepResult_sameToPrograms {s s' : State} (h : Spec.SameToPrograms s s') : stepResult s' = stepResult s := by
  have hfaulted : s'.faulted = s.faulted := by rw [h.1]
  have hnext : s'.nextInstr = s.nextInstr := by rw [State.nextInstr, State.nextInstr, fetch_sameToPrograms h]
  by_cases hs : s.faulted = true
  · simp only [stepResult, step_of_faulted hs, step_of_faulted (hfaulted.trans hs)]
  · obtain ⟨t, ht⟩ := step_of_not_faulted (eq_false_of_ne_true hs)
    obtain ⟨t', ht', hsame, hrecord⟩ := step_sameAnswer h ht
    have hlatch : t'.faulted = t.faulted := by rw [hsame.1]
    simp only [stepResult, ht, ht', hlatch, hnext, waitsForKey_sameToPrograms h]
    split
    · rw [hrecord ‹_›]
    · rfl

end Sys2Proof.Machine

namespace Sys2Proof

open Machine

/-- Settles O52: the two states raise the same fault or complete alike, and the result reads the record only of a fault
that both have just entered. -/
theorem unobservableStateStaysUnobservable : Obligations.UnobservableStateStaysUnobservable := by
  unfold Obligations.UnobservableStateStaysUnobservable
  intro s s' h
  refine ⟨stepResult_sameToPrograms h, fun hr => ?_, fun t ht => ?_⟩
  · have hs := faulted_of_step_refused hr
    exact step_of_faulted (by rw [h.1]; exact hs)
  · obtain ⟨t', ht', hsame, -⟩ := step_sameAnswer h ht
    exact ⟨t', ht', hsame⟩

end Sys2Proof
end

section
/-! Who writes what (10_state.md, summary table and R23; 40_step.md R93). -/

namespace Sys2Proof.Machine

/-! ### The pieces other than registers and `PC` -/

section
variable {i : Instr} {s : State}

theorem writer_of_mem (h : (completed i s).mem ≠ s.mem) : ∃ x, i = .ldBcd x ∨ i = .storeRegs x := by
  cases i with
  | ldBcd x | storeRegs x => simp
  | _ => exact absurd rfl h

theorem writer_of_pix (h : (completed i s).pix ≠ s.pix) : i = .cls ∨ ∃ x y n, i = .drw x y n := by
  cases i with
  | cls | drw => simp
  | _ => exact absurd rfl h

theorem writer_of_stack (h : (completed i s).stack ≠ s.stack) : ∃ nnn, i = .call nnn := by
  cases i with
  | call => simp
  | _ => exact absurd rfl h

theorem writer_of_sp (h : (completed i s).sp ≠ s.sp) : i = .ret ∨ ∃ nnn, i = .call nnn := by
  cases i with
  | ret | call => simp
  | _ => exact absurd rfl h

theorem writer_of_dt (h : (completed i s).dt ≠ s.dt) : ∃ x, i = .ldDt x := by
  cases i with
  | ldDt => simp
  | _ => exact absurd rfl h

theorem writer_of_st (h : (completed i s).st ≠ s.st) : ∃ x, i = .ldSt x := by
  cases i with
  | ldSt => simp
  | _ => exact absurd rfl h

theorem writer_of_draws (h : (completed i s).draws ≠ s.draws) : ∃ x kk, i = .rnd x kk := by
  cases i with
  | rnd => simp
  | _ => exact absurd rfl h

theorem increments_of_afterBlock_i {x : Reg} (h : (s.afterBlock x).i ≠ s.i) : s.params.loadstoreIncrementsI = true := by
  unfold State.afterBlock at h
  split at h
  · assumption
  · exact absurd rfl h

theorem writer_of_i (h : (completed i s).i ≠ s.i) :
    (∃ nnn, i = .ldI nnn) ∨ (∃ x, i = .addI x ∨ i = .ldFont x) ∨
      s.params.loadstoreIncrementsI = true ∧ ∃ x, i = .storeRegs x ∨ i = .loadRegs x := by
  cases i with
  | ldI | addI | ldFont => simp
  | storeRegs x | loadRegs x => simp [increments_of_afterBlock_i h]
  | _ => exact absurd rfl h

end

/-! ### Registers -/

theorem completed_ldKey_of_none {s : State} (h : s.lowestKey = none) (x : Reg) : completed (.ldKey x) s = s := by
  simp [completed, h]

theorem completed_ldKey_of_some {s : State} {k : Reg} (h : s.lowestKey = some k) (x : Reg) :
    completed (.ldKey x) s = (s.setReg x (u8 k.val)).advance := by
  simp [completed, h, State.setReg, State.advance]

theorem reg_completed_loadRegs (x : Reg) (s : State) (r : Reg) :
    (completed (.loadRegs x) s).reg r = if r ≤ x then s.readByte (s.i.toNat + r.val) else s.reg r :=
  (State.loadBlock_spec s s.i.toNat x).2 r

/-- An instruction writes no register outside its "writes" column (R23). -/
theorem reg_completed_of_not_written {i : Instr} {s : State} {r : Reg} (h : Spec.writes i r = false) :
    (completed i s).reg r = s.reg r := by
  cases i with
  | ldImm | addImm | ldReg | orReg | andReg | xorReg | rnd | ldFromDt | addReg | subReg | subn | shr | shl | drw =>
    simp_all [Spec.writes, completed]
  | ldKey x =>
    cases hk : s.lowestKey with
    | none => rw [completed_ldKey_of_none hk]
    | some k =>
      rw [completed_ldKey_of_some hk]
      simp_all [Spec.writes]
  | loadRegs x => simp_all [Spec.writes, reg_completed_loadRegs]
  | _ => rfl

/-! ### `PC` -/

theorem pcPlus_eq (s : State) (k : Nat) : Spec.pcPlus s k = s.pc + BitVec.ofNat 16 k := by
  apply BitVec.eq_of_toNat_eq
  simp [Spec.pcPlus]

theorem zextAddr_eq (nnn : Addr) : zextAddr nnn = u16 nnn.toNat := by
  apply BitVec.eq_of_toNat_eq
  simp [zextAddr]

theorem indexedTarget_eq (nnn : Addr) (s : State) : indexedTarget nnn s = u16 (nnn.toNat + (s.reg 0).toNat) := by
  apply BitVec.eq_of_toNat_eq
  simp [indexedTarget, zextAddr, zextByte]

/-- Some key is pressed exactly when there is a lowest one. -/
theorem any_isPressed_eq (s : State) : (List.range 16).any s.isPressed = s.lowestKey.isSome := by
  cases hk : s.lowestKey with
  | none =>
    have hnone := (State.lowestKey_eq_none s).mp hk
    simpa using fun k hk => hnone ⟨k, hk⟩
  | some k =>
    have hpressed := ((State.lowestKey_eq_some s k).mp hk).1
    simpa using ⟨k.val, k.isLt, hpressed⟩

/-- The completed instruction's `PC` is that of the policy table (R93). -/
theorem completed_pc (i : Instr) (s : State) : (completed i s).pc = Spec.nextPc i s := by
  cases i with
  | ret => rfl
  | jp nnn | call nnn => exact zextAddr_eq nnn
  | jpV0 nnn => exact indexedTarget_eq nnn s
  | seImm | sneImm | seReg | sneReg | skp | sknp => simp [completed, Spec.nextPc, pcPlus_eq]
  | ldKey x =>
    rw [Spec.nextPc, any_isPressed_eq, pcPlus_eq]
    cases hk : s.lowestKey with
    | none => simp [completed, hk]
    | some k => simp [completed, hk]
  | _ => exact (pcPlus_eq s 2).symm

end Sys2Proof.Machine

namespace Sys2Proof

open Machine

/-- Settles O50: a fault entry changes the latch and the record alone, and a completion only the pieces of its row. -/
theorem eachPieceOfStateHasItsWriters : Obligations.EachPieceOfStateHasItsWriters := by
  unfold Obligations.EachPieceOfStateHasItsWriters
  intro i s t ht
  rcases exec_answers ht with ⟨-, rfl⟩ | ⟨c, a, hf, rfl⟩
  case inl =>
    refine ⟨writer_of_mem, writer_of_pix, writer_of_stack, writer_of_sp, writer_of_i, writer_of_dt, writer_of_st,
      writer_of_draws, completed_key i s, completed_params i s, ?latch, ?regs, .inl (completed_pc i s), ?fault⟩
    case latch => exact fun hs => (completed_faulted i s).trans hs
    case regs => exact fun r hr => by_contra fun hw => hr (reg_completed_of_not_written (eq_false_of_ne_true hw))
    case fault => simp
  case inr =>
    have hcan : Spec.CanFault i := canFault_of_instrFault (s := s) (by simp [hf])
    have same {α : Type} {a : α} {P : Prop} (h : a ≠ a) : P := absurd rfl h
    exact ⟨same, same, same, same, same, same, same, same, rfl, rfl, fun _ => rfl, fun _ => same,
      .inr ⟨rfl, rfl, hcan⟩, fun _ => ⟨hcan, rfl⟩⟩

end Sys2Proof
end

section
/-! The registers that an instruction reads (10_state.md R23): what it does depends on no other. -/

namespace Sys2Proof.Machine

/-- `t'` has the registers of `t`, or both kept their old one, those of `s` and `s'`. -/
def RegsFollow (s s' t t' : State) : Prop :=
  ∀ r, t'.reg r = t.reg r ∨ (t.reg r = s.reg r ∧ t'.reg r = s'.reg r)

theorem regsFollow_refl (s s' : State) : RegsFollow s s' s s' := fun _ => .inr ⟨rfl, rfl⟩

/-- Writing the same byte to the same register. -/
theorem RegsFollow.setReg {s s' t t' : State} (h : RegsFollow s s' t t') (x : Reg) {b b' : Byte} (hb : b' = b) :
    RegsFollow s s' (t.setReg x b) (t'.setReg x b') := by
  subst hb
  intro r
  by_cases hr : r = x
  · simp [hr]
  · simpa [hr] using h r

theorem RegsFollow.setRegAndFlag {s s' t t' : State} (h : RegsFollow s s' t t') (x : Reg) {b b' f f' : Byte}
    (hb : b' = b) (hf : f' = f) : RegsFollow s s' (t.setRegAndFlag x b f) (t'.setRegAndFlag x b' f') :=
  (h.setReg x hb).setReg VF hf

/-- The shifted register is the one in the "reads" column for the setting of `SHIFT_SOURCE`. -/
theorem shiftOperand_congr {s t : State} {x y : Reg}
    (hr : ∀ r, Spec.reads (.shr x y) s.params r = true → t.reg r = s.reg r) (hp : t.params = s.params) :
    shiftOperand t x y = shiftOperand s x y := by
  simp only [shiftOperand, hp]
  cases hs : s.params.shiftSource with
  | vx => exact hr x (by simp [Spec.reads, hs])
  | vy => exact hr y (by simp [Spec.reads, hs])

section
variable {s : State} {v : Vector Byte 16} {i : Instr}
  (hr : ∀ r, Spec.reads i s.params r = true → State.reg { s with v := v } r = s.reg r)
include hr

theorem completed_pc_of_reads : (completed i { s with v := v }).pc = (completed i s).pc := by
  cases i with
  | seImm x | sneImm x | skp x | sknp x => simp only [completed, hr x (by simp [Spec.reads])]; rfl
  | seReg x y | sneReg x y =>
    simp only [completed, hr x (by simp [Spec.reads]), hr y (by simp [Spec.reads])]
    rfl
  | jpV0 nnn => simp only [completed, indexedTarget, hr 0 (by simp [Spec.reads])]; rfl
  | _ => rfl

theorem completed_pix_of_reads : (completed i { s with v := v }).pix = (completed i s).pix := by
  cases i with
  | drw x y n =>
    simp only [completed, hr x (by simp [Spec.reads]), hr y (by simp [Spec.reads])]
    rfl
  | _ => rfl

theorem completed_dt_of_reads : (completed i { s with v := v }).dt = (completed i s).dt := by
  cases i with
  | ldDt x => exact hr x (by simp [Spec.reads])
  | _ => rfl

theorem completed_st_of_reads : (completed i { s with v := v }).st = (completed i s).st := by
  cases i with
  | ldSt x => exact hr x (by simp [Spec.reads])
  | _ => rfl

/-- Everything but the registers is the same in both. -/
theorem completed_eq_of_reads :
    completed i { s with v := v } = { completed i s with v := (completed i { s with v := v }).v } := by
  dsimp only
  rw [← completed_mem_congr hr rfl rfl, ← completed_i_congr hr rfl rfl, ← completed_pc_of_reads hr,
    ← completed_pix_of_reads hr, ← completed_dt_of_reads hr, ← completed_st_of_reads hr]
  cases i <;> rfl

/-- Every register is the same in both or is the old one in both. -/
theorem regsFollow_completed : RegsFollow s { s with v := v } (completed i s) (completed i { s with v := v }) := by
  have start := regsFollow_refl s { s with v := v }
  cases i with
  | ldImm x | ldFromDt x | rnd x => exact start.setReg x rfl
  | addImm x => exact start.setReg x (by rw [hr x (by simp [Spec.reads])])
  | ldReg x y => exact start.setReg x (hr y (by simp [Spec.reads]))
  | orReg x y | andReg x y | xorReg x y =>
    have hx := hr x (by simp [Spec.reads])
    have hy := hr y (by simp [Spec.reads])
    exact start.setReg x (by rw [hx, hy])
  | addReg x y | subReg x y | subn x y =>
    have hx := hr x (by simp [Spec.reads])
    have hy := hr y (by simp [Spec.reads])
    exact start.setRegAndFlag x (by rw [hx, hy]) (by rw [hx, hy])
  | shr x y | shl x y =>
    have hv := shiftOperand_congr (s := s) (t := { s with v := v }) hr rfl
    exact start.setRegAndFlag x (by rw [hv]) (by rw [hv])
  | drw x y n =>
    have hx := hr x (by simp [Spec.reads])
    have hy := hr y (by simp [Spec.reads])
    exact start.setReg VF (by rw [hx, hy]; rfl)
  | ldKey x =>
    cases hk : s.lowestKey with
    | none =>
      rw [completed_ldKey_of_none hk, completed_ldKey_of_none (s := { s with v := v }) hk]
      exact start
    | some k =>
      rw [completed_ldKey_of_some hk, completed_ldKey_of_some (s := { s with v := v }) hk]
      exact start.setReg x rfl
  | loadRegs x =>
    intro r
    rw [reg_completed_loadRegs, reg_completed_loadRegs]
    by_cases hrx : r ≤ x
    · exact .inl (by rw [if_pos hrx, if_pos hrx]; rfl)
    · exact .inr ⟨if_neg hrx, if_neg hrx⟩
  | _ => exact start

end

end Sys2Proof.Machine

namespace Sys2Proof

open Machine

/-- Settles O51: the two states raise the same fault, which writes no register, or complete with the same bytes written. -/
theorem registersReadAndWrittenAreThoseOfTheTable : Obligations.RegistersReadAndWrittenAreThoseOfTheTable := by
  unfold Obligations.RegistersReadAndWrittenAreThoseOfTheTable
  intro i s t ht
  have hfault : ∀ s', s' = { s with v := s'.v } → (∀ r, Spec.reads i s.params r = true → s'.reg r = s.reg r) →
      instrFault i s' = instrFault i s := fun s' e hr => instrFault_congr hr (by rw [e]) (by rw [e])
  rcases exec_answers ht with ⟨hf, rfl⟩ | ⟨c, a, hf, rfl⟩
  case inl =>
    refine ⟨fun r hw => reg_completed_of_not_written hw, fun s' e hr => ?_⟩
    refine ⟨completed i s', exec_of_no_fault ((hfault s' e hr).trans hf), ?_⟩
    obtain ⟨v, rfl⟩ : ∃ v, s' = { s with v := v } := ⟨_, e⟩
    exact ⟨completed_eq_of_reads hr, regsFollow_completed hr⟩
  case inr =>
    refine ⟨fun r _ => rfl, fun s' e hr => ?_⟩
    refine ⟨s'.enterFault c (encode i) a, exec_of_instrFault ((hfault s' e hr).trans hf), ?_, fun r => .inr ⟨rfl, rfl⟩⟩
    rw [e]
    rfl

end Sys2Proof
end

section
/-! Stored bytes and the fetch: Fx33, Fx55 and the host's load change the memory byte by byte, and a fetch reads two bytes of
the memory as it then is (20_memory.md R52, R64). -/

namespace Sys2Proof.Machine

/-! ### The fetch over a memory known byte by byte -/

/-- A fetch at `p` reads, high byte first, the numbers that the memory holds at `p` and `p + 1` (R52). -/
theorem fetch_map_toNat {t : State} {byteAt : Nat → Nat} (h : ∀ a, (t.readByte a).toNat = byteAt a) {p : Word}
    (hp : p.toNat ≤ 0xFFE) :
    ({ t with pc := p }.fetch).map BitVec.toNat = some (byteAt p.toNat * 256 + byteAt (p.toNat + 1)) := by
  rw [fetch_eq_some hp, Option.map_some, wordOfBytes_toNat, ← h, ← h]
  rfl

/-! ### The digits of a byte (43_index_memory.md R153) -/

@[simp] theorem bcdHundreds_toNat (v : Byte) : (bcdHundreds v).toNat = v.toNat / 100 :=
  (BitVec.toNat_ofNat _ _).trans <| Nat.mod_eq_of_lt (by have := v.isLt; omega)

@[simp] theorem bcdTens_toNat (v : Byte) : (bcdTens v).toNat = v.toNat / 10 % 10 :=
  (BitVec.toNat_ofNat _ _).trans <| Nat.mod_eq_of_lt (by omega)

@[simp] theorem bcdUnits_toNat (v : Byte) : (bcdUnits v).toNat = v.toNat % 10 :=
  (BitVec.toNat_ofNat _ _).trans <| Nat.mod_eq_of_lt (by omega)

/-! ### The memory after each of the three ways to store -/

section
variable {s : State} (h : Memory.wf s.mem) {x : Reg}
include h

theorem readByte_completed_ldBcd (hb : s.i.toNat + 2 ≤ 0xFFF) (a : Nat) :
    ((completed (.ldBcd x) s).readByte a).toNat = Spec.byteAfterBcd s x a := by
  have inUnits : s.i.toNat + 2 < Config.memSize := Nat.lt_succ_of_le hb
  have inTens : s.i.toNat + 1 < Config.memSize := Nat.lt_of_succ_lt inUnits
  have inHundreds : s.i.toNat < Config.memSize := Nat.lt_of_succ_lt inTens
  have wfHundreds := State.wf_storeByte h s.i.toNat (bcdHundreds (s.reg x))
  have wfTens := State.wf_storeByte wfHundreds (s.i.toNat + 1) (bcdTens (s.reg x))
  have hread : (completed (.ldBcd x) s).readByte a =
      if a = s.i.toNat + 2 then bcdUnits (s.reg x)
      else if a = s.i.toNat + 1 then bcdTens (s.reg x)
      else if a = s.i.toNat then bcdHundreds (s.reg x) else s.readByte a := by
    rw [← State.readByte_storeByte h inHundreds, ← State.readByte_storeByte wfHundreds inTens,
      ← State.readByte_storeByte wfTens inUnits]
    rfl
  simp only [hread, Spec.byteAfterBcd, apply_ite BitVec.toNat, bcdHundreds_toNat, bcdTens_toNat, bcdUnits_toNat]
  split_ifs <;> omega

theorem readByte_completed_storeRegs (hb : s.i.toNat + x.val ≤ 0xFFF) (a : Nat) :
    ((completed (.storeRegs x) s).readByte a).toNat = Spec.byteAfterStore s x a := by
  obtain ⟨-, -, stored, kept⟩ := State.storeBlock_spec h (base := s.i.toNat) (x := x) (Nat.lt_succ_of_le hb)
  rw [Spec.byteAfterStore]
  split
  case isTrue hin =>
    have hval : (Fin.ofNat 16 (a - s.i.toNat)).val = a - s.i.toNat := Nat.mod_eq_of_lt (by omega)
    have hj := stored (Fin.ofNat 16 (a - s.i.toNat)) (Fin.le_def.mpr (by omega))
    rw [hval, Nat.add_sub_cancel' hin.1] at hj
    exact congrArg BitVec.toNat hj
  case isFalse hout => exact congrArg BitVec.toNat (kept a (by omega))

end

theorem readByte_load {s : State} (h : Memory.wf s.mem) {a : Nat} (ha : a ≤ 0xFFF) (b : Byte) (c : Nat) :
    ((transact (.load a b) s).2.readByte c).toNat = Spec.byteAfterLoad s a b c := by
  have hload : transact (.load a b) s = (.ok, s.storeByte a b) := if_neg (Nat.not_lt.mpr ha)
  rw [hload, State.readByte_storeByte h (Nat.lt_succ_of_le ha), Spec.byteAfterLoad, apply_ite BitVec.toNat]

/-! ### A block in range raises no fault -/

/-- A block access raises no fault exactly when the block is empty or ends inside the memory (R156). -/
theorem blockFault_eq_none {k : Nat} {s : State} : blockFault k s = none ↔ k = 0 ∨ s.i.toNat + k ≤ 0x1000 := by
  rw [blockFault, Option.map_eq_none_iff, firstOutOfRange_eq_none]

end Sys2Proof.Machine

namespace Sys2Proof

open Machine

/-- Settles O32: each of the three leaves a memory known byte by byte, and the fetch reads two bytes of it. -/
theorem storedBytesAreFetchedNext : Obligations.StoredBytesAreFetchedNext := by
  unfold Obligations.StoredBytesAreFetchedNext
  refine ⟨?bcd, ?store, ?load⟩
  case bcd =>
    intro x s h hb
    have hnone : instrFault (.ldBcd x) s = none := blockFault_eq_none.mpr (.inr (by omega))
    exact ⟨_, exec_of_no_fault hnone, fun _ => fetch_map_toNat (readByte_completed_ldBcd h hb)⟩
  case store =>
    intro x s h hb
    have hnone : instrFault (.storeRegs x) s = none := blockFault_eq_none.mpr (.inr (by omega))
    exact ⟨_, exec_of_no_fault hnone, fun _ => fetch_map_toNat (readByte_completed_storeRegs h hb)⟩
  case load =>
    intro s a b p h ha hp
    exact fetch_map_toNat (readByte_load h ha b) hp

end Sys2Proof
end

section
/-! The dispatch mux by major opcode (30_encoding.md R74), the words that each of its groups leaves unrecognized (R75), and
the round trip from an instruction to its word and its bytes (R73, R77). -/

namespace Sys2Proof

open Machine

/-! ### The mux by major opcode -/

section
variable {op : Word}

theorem decodeWord_of_n1_0 (h : (fieldN1 op).val = 0x0) : decodeWord op = decodeGroup0 op := by
  simp only [decodeWord, h]

theorem decodeWord_of_n1_5 (h : (fieldN1 op).val = 0x5) :
    decodeWord op = if fieldN op = 0 then some (.seReg (fieldX op) (fieldY op)) else none := by
  simp only [decodeWord, h]

theorem decodeWord_of_n1_8 (h : (fieldN1 op).val = 0x8) : decodeWord op = decodeGroup8 op := by
  simp only [decodeWord, h]

theorem decodeWord_of_n1_9 (h : (fieldN1 op).val = 0x9) :
    decodeWord op = if fieldN op = 0 then some (.sneReg (fieldX op) (fieldY op)) else none := by
  simp only [decodeWord, h]

theorem decodeWord_of_n1_E (h : (fieldN1 op).val = 0xE) : decodeWord op = decodeGroupE op := by
  simp only [decodeWord, h]

theorem decodeWord_of_n1_F (h : (fieldN1 op).val = 0xF) : decodeWord op = decodeGroupF op := by
  simp only [decodeWord, h]

/-- The ten other major opcodes are one row each, which recognizes every word. -/
theorem decodeWord_ne_none_of_one_row (h : (fieldN1 op).val ∉ [0x0, 0x5, 0x8, 0x9, 0xE, 0xF]) : decodeWord op ≠ none := by
  have hlt := (fieldN1 op).isLt
  simp only [List.mem_cons, List.not_mem_nil, or_false, not_or] at h
  have ten : (fieldN1 op).val = 0x1 ∨ (fieldN1 op).val = 0x2 ∨ (fieldN1 op).val = 0x3 ∨ (fieldN1 op).val = 0x4 ∨
      (fieldN1 op).val = 0x6 ∨ (fieldN1 op).val = 0x7 ∨ (fieldN1 op).val = 0xA ∨ (fieldN1 op).val = 0xB ∨
        (fieldN1 op).val = 0xC ∨ (fieldN1 op).val = 0xD := by omega
  rcases ten with e | e | e | e | e | e | e | e | e | e <;> simp [decodeWord, e]

/-! ### What each group leaves unrecognized -/

theorem decodeGroup0_eq_none : decodeGroup0 op = none ↔ op ≠ 0x00E0 ∧ op ≠ 0x00EE := by
  simp [decodeGroup0, ite_eq_iff]

theorem decodeGroup8_eq_none :
    decodeGroup8 op = none ↔ (fieldN op).val ∈ [0x8, 0x9, 0xA, 0xB, 0xC, 0xD, 0xF] := by
  unfold decodeGroup8
  generalize fieldN op = n
  fin_cases n <;> simp

theorem decodeGroupE_eq_none : decodeGroupE op = none ↔ (fieldKk op).toNat ∉ [0x9E, 0xA1] := by
  simp [decodeGroupE, ite_eq_iff, ← BitVec.toNat_inj]

theorem decodeGroupF_eq_none :
    decodeGroupF op = none ↔ (fieldKk op).toNat ∉ [0x07, 0x0A, 0x15, 0x18, 0x1E, 0x29, 0x33, 0x55, 0x65] := by
  simp [decodeGroupF, ite_eq_iff, ← BitVec.toNat_inj]

end

/-- Settles O3, by the major opcode: six have words that no row matches, the others recognize every word. -/
theorem unrecognizedWordsAreTheSixGroups : Obligations.UnrecognizedWordsAreTheSixGroups := by
  unfold Obligations.UnrecognizedWordsAreTheSixGroups
  intro op
  dsimp only
  rw [← fieldN1_val, ← fieldN_val, ← fieldKk_toNat]
  by_cases h : (fieldN1 op).val ∈ [0x0, 0x5, 0x8, 0x9, 0xE, 0xF]
  case neg =>
    have recognized := decodeWord_ne_none_of_one_row h
    simp only [List.mem_cons, List.not_mem_nil, or_false, not_or] at h
    simp [recognized, h]
  case pos =>
    simp only [List.mem_cons, List.not_mem_nil, or_false] at h
    rcases h with h | h | h | h | h | h
    · simp [decodeWord_of_n1_0 h, decodeGroup0_eq_none, h]
    · simp [decodeWord_of_n1_5 h, h]
    · simp [decodeWord_of_n1_8 h, decodeGroup8_eq_none, h]
    · simp [decodeWord_of_n1_9 h, h]
    · simp [decodeWord_of_n1_E h, decodeGroupE_eq_none, h]
    · simp [decodeWord_of_n1_F h, decodeGroupF_eq_none, h]

/-! ### The round trip -/

/-- Each field of an instruction's word is the operand that its pattern puts there (R73); only the row count needs
well-formedness, to fit its four bits. -/
theorem decodeWord_encode {i : Instr} (hi : i.wf = true) : decodeWord (encode i) = some i := by
  cases i with
  | cls | ret => rfl
  | jp nnn | call nnn | ldI nnn | jpV0 nnn => simp [encode, decodeWord]
  | seImm x kk | sneImm x kk | ldImm x kk | addImm x kk | rnd x kk => simp [encode, decodeWord]
  | seReg x y | sneReg x y => simp [encode, decodeWord]
  | ldReg x y | orReg x y | andReg x y | xorReg x y | addReg x y | subReg x y | shr x y | subn x y | shl x y =>
    simp [encode, decodeWord, decodeGroup8]
  | drw x y n =>
    have hn : n ≤ 15 := of_decide_eq_true hi
    simp [encode, decodeWord, Nat.mod_eq_of_lt (Nat.lt_succ_of_le hn)]
  | skp x | sknp x => simp [encode, decodeWord, decodeGroupE]
  | ldFromDt x | ldKey x | ldDt x | ldSt x | addI x | ldFont x | ldBcd x | storeRegs x | loadRegs x =>
    simp [encode, decodeWord, decodeGroupF]

/-- Decoding the two bytes of a recognized word, high byte first, consumes exactly these two (R77). -/
theorem decode_of_decodeWord {op : Word} {i : Instr} (h : decodeWord op = some i) (rest : List Byte) :
    decode (highByte op :: lowByte op :: rest) = .instr i rest := by
  simp only [decode, wordOfBytes_highByte_lowByte, h]

/-- Settles O1: the word goes back through the fields of its pattern, and the bytes are those of the word. -/
theorem decodeInvertsEncode : Obligations.DecodeInvertsEncode := by
  unfold Obligations.DecodeInvertsEncode
  intro i rest hi
  exact ⟨decodeWord_encode hi, decode_of_decodeWord (decodeWord_encode hi) rest⟩

/-- Settles O4: the mux is evaluated on each of the ten closed words. -/
theorem wordsOfTheMapDecode : Obligations.WordsOfTheMapDecode := by
  unfold Obligations.WordsOfTheMapDecode
  decide

/-- Settles O10: an instruction answers its completion or its fault entry, and both are next states. -/
theorem everyInstructionAnswersANextState : Obligations.EveryInstructionAnswersANextState := by
  unfold Obligations.EveryInstructionAnswersANextState
  intro i s
  exact ⟨_, exec_eq i s⟩

end Sys2Proof
end

section
/-! The decoder against the opcode map (40_step.md R92): a word is the word of the instruction it decodes to, and the row it
decodes to depends on the bits under the row's mask alone. -/

namespace Sys2Proof

open Machine

/-! ### A word is its fields (30_encoding.md R70) -/

section
variable {op : Word} {c : Nat} (h1 : (fieldN1 op).val = c)
include h1

theorem append_nnn : (BitVec.ofNat 4 c ++ fieldNnn op : Word) = op := by
  apply BitVec.eq_of_toNat_eq
  have := op.isLt
  rw [fieldN1_val] at h1
  rw [toNat_nnn, BitVec.toNat_ofNat, fieldNnn_toNat]
  omega

theorem append_xkk {kk : Byte} (hkk : fieldKk op = kk) : (BitVec.ofNat 4 c ++ nibble (fieldX op) ++ kk : Word) = op := by
  apply BitVec.eq_of_toNat_eq
  have := op.isLt
  rw [fieldN1_val] at h1
  rw [← hkk, toNat_xkk, BitVec.toNat_ofNat, nibble_toNat, fieldX_val, fieldKk_toNat]
  omega

theorem append_xyn {d : Nat} (hn : (fieldN op).val = d) :
    (BitVec.ofNat 4 c ++ nibble (fieldX op) ++ nibble (fieldY op) ++ BitVec.ofNat 4 d : Word) = op := by
  apply BitVec.eq_of_toNat_eq
  have := op.isLt
  rw [fieldN1_val] at h1
  rw [← hn, toNat_xyn, BitVec.toNat_ofNat, BitVec.toNat_ofNat, nibble_toNat, nibble_toNat, fieldX_val, fieldY_val,
    fieldN_val]
  omega

end

/-! ### The decoded instruction has the word's fields -/

section
variable {op : Word} {i : Instr}

/-- One test of a group: its instruction when the test holds, else what the rest of the group answers. -/
theorem encode_of_ite {p : Prop} [Decidable p] {j : Instr} {rest : Option Instr}
    (h : (if p then some j else rest) = some i) (hj : p → encode j = op) (hrest : rest = some i → encode i = op) :
    encode i = op := by
  split at h
  · cases h
    exact hj ‹_›
  · exact hrest h

theorem encode_of_decodeGroup0 (h : decodeGroup0 op = some i) : encode i = op := by
  refine encode_of_ite h Eq.symm fun h => encode_of_ite h Eq.symm fun h => ?_
  cases h

theorem encode_of_decodeGroup8 (h1 : (fieldN1 op).val = 0x8) (h : decodeGroup8 op = some i) : encode i = op := by
  unfold decodeGroup8 at h
  split at h <;> cases h <;> exact append_xyn h1 ‹_›

theorem encode_of_decodeGroupE (h1 : (fieldN1 op).val = 0xE) (h : decodeGroupE op = some i) : encode i = op := by
  refine encode_of_ite h (append_xkk h1) fun h => encode_of_ite h (append_xkk h1) fun h => ?_
  cases h

theorem encode_of_decodeGroupF (h1 : (fieldN1 op).val = 0xF) (h : decodeGroupF op = some i) : encode i = op := by
  iterate 9 refine encode_of_ite h (append_xkk h1) fun h => ?_
  cases h

/-- Putting the fields of a word back in its pattern gives the word, in every group of the mux. -/
theorem encode_of_decodeWord (h : decodeWord op = some i) : encode i = op := by
  unfold decodeWord at h
  split at h
  case h_1 => exact encode_of_decodeGroup0 h
  case h_9 h1 => exact encode_of_decodeGroup8 h1 h
  case h_15 h1 => exact encode_of_decodeGroupE h1 h
  case h_16 h1 => exact encode_of_decodeGroupF h1 h
  case h_2 h1 | h_3 h1 | h_11 h1 | h_12 h1 =>
    cases h
    exact append_nnn h1
  case h_4 h1 | h_5 h1 | h_7 h1 | h_8 h1 | h_13 h1 =>
    cases h
    exact append_xkk h1 rfl
  case h_6 h1 | h_10 h1 =>
    refine encode_of_ite h (fun hn => append_xyn h1 (congrArg Fin.val hn)) fun h => ?_
    cases h
  case h_14 h1 =>
    cases h
    exact append_xyn h1 rfl
  case h_17 => cases h

end

/-- The one operand that its type does not bound, the row count of Dxyn, is a nibble of the word. -/
theorem wf_of_decodeWord {op : Word} {i : Instr} (h : decodeWord op = some i) : i.wf = true := by
  cases i with
  | drw x y n =>
    have h1 : fieldN1 op = 0xD := encode_of_decodeWord h ▸ fieldN1_xyn ..
    simp only [decodeWord, h1] at h
    cases h
    exact decide_eq_true (Nat.le_of_lt_succ (fieldN op).isLt)
  | _ => rfl

theorem rowOf_mem_opcodeMap (i : Instr) : rowOf i ∈ opcodeMap := by
  cases i <;> simp only [rowOf] <;> decide

/-- The word of an instruction is in the instruction's row (R73). -/
theorem matchesRow_encode (i : Instr) : matchesRow (encode i) (rowOf i) = true := by
  cases i with
  | cls => exact Laws.RowMatch.cls
  | ret => exact Laws.RowMatch.ret
  | jp => exact Laws.RowMatch.jp _
  | call => exact Laws.RowMatch.call _
  | seImm => exact Laws.RowMatch.seImm _ _
  | sneImm => exact Laws.RowMatch.sneImm _ _
  | seReg => exact Laws.RowMatch.seReg _ _
  | ldImm => exact Laws.RowMatch.ldImm _ _
  | addImm => exact Laws.RowMatch.addImm _ _
  | ldReg => exact Laws.RowMatch.ldReg _ _
  | orReg => exact Laws.RowMatch.orReg _ _
  | andReg => exact Laws.RowMatch.andReg _ _
  | xorReg => exact Laws.RowMatch.xorReg _ _
  | addReg => exact Laws.RowMatch.addReg _ _
  | subReg => exact Laws.RowMatch.subReg _ _
  | shr => exact Laws.RowMatch.shr _ _
  | subn => exact Laws.RowMatch.subn _ _
  | shl => exact Laws.RowMatch.shl _ _
  | sneReg => exact Laws.RowMatch.sneReg _ _
  | ldI => exact Laws.RowMatch.ldI _
  | jpV0 => exact Laws.RowMatch.jpV0 _
  | rnd => exact Laws.RowMatch.rnd _ _
  | drw => exact Laws.RowMatch.drw _ _ _
  | skp => exact Laws.RowMatch.skp _
  | sknp => exact Laws.RowMatch.sknp _
  | ldFromDt => exact Laws.RowMatch.ldFromDt _
  | ldKey => exact Laws.RowMatch.ldKey _
  | ldDt => exact Laws.RowMatch.ldDt _
  | ldSt => exact Laws.RowMatch.ldSt _
  | addI => exact Laws.RowMatch.addI _
  | ldFont => exact Laws.RowMatch.ldFont _
  | ldBcd => exact Laws.RowMatch.ldBcd _
  | storeRegs => exact Laws.RowMatch.storeRegs _
  | loadRegs => exact Laws.RowMatch.loadRegs _

/-! ### The fields that a mask keeps -/

theorem fieldN1_and {op m : Word} (hm : m.extractLsb' 12 4 = BitVec.allOnes 4) : fieldN1 (op &&& m) = fieldN1 op := by
  rw [fieldN1, BitVec.extractLsb'_and, hm, BitVec.and_allOnes, fieldN1]

theorem fieldN_and {op m : Word} (hm : m.extractLsb' 0 4 = BitVec.allOnes 4) : fieldN (op &&& m) = fieldN op := by
  rw [fieldN, BitVec.extractLsb'_and, hm, BitVec.and_allOnes, fieldN]

theorem fieldKk_and {op m : Word} (hm : m.extractLsb' 0 8 = BitVec.allOnes 8) : fieldKk (op &&& m) = fieldKk op := by
  rw [fieldKk, BitVec.extractLsb'_and, hm, BitVec.and_allOnes, fieldKk]

/-! ### The row depends on the bits under its mask -/

/-- The row that the mux selects for a word. -/
def decodedRow (op : Word) : Option (Word × Word) := (decodeWord op).map rowOf

section
variable {op pat : Word} (h1 : fieldN1 op = fieldN1 pat)
include h1

/-- In the ten groups of one row the major opcode selects the row. -/
theorem decodedRow_congr_of_n1 (hg : fieldN1 pat ∉ ([0x0, 0x5, 0x8, 0x9, 0xE, 0xF] : List (Fin 16))) :
    decodedRow op = decodedRow pat := by
  simp only [decodedRow, decodeWord, h1]
  generalize fieldN1 pat = n1 at hg ⊢
  revert hg
  fin_cases n1 <;> simp [rowOf]

/-- In the groups 5, 8 and 9 the major opcode and the low nibble select the row. -/
theorem decodedRow_congr_of_n (hn : fieldN op = fieldN pat) (hg : fieldN1 pat ∈ ([0x5, 0x8, 0x9] : List (Fin 16))) :
    decodedRow op = decodedRow pat := by
  simp only [List.mem_cons, List.not_mem_nil, or_false] at hg
  unfold decodedRow
  rcases hg with hg | hg | hg
  · rw [decodeWord_of_n1_5 (congrArg Fin.val (h1.trans hg)), decodeWord_of_n1_5 (congrArg Fin.val hg), hn]
    split <;> rfl
  · rw [decodeWord_of_n1_8 (congrArg Fin.val (h1.trans hg)), decodeWord_of_n1_8 (congrArg Fin.val hg), decodeGroup8,
      decodeGroup8, hn]
    generalize fieldN pat = n
    fin_cases n <;> rfl
  · rw [decodeWord_of_n1_9 (congrArg Fin.val (h1.trans hg)), decodeWord_of_n1_9 (congrArg Fin.val hg), hn]
    split <;> rfl

/-- In the groups E and F the major opcode and the low byte select the row. -/
theorem decodedRow_congr_of_kk (hkk : fieldKk op = fieldKk pat) (hg : fieldN1 pat ∈ ([0xE, 0xF] : List (Fin 16))) :
    decodedRow op = decodedRow pat := by
  simp only [List.mem_cons, List.not_mem_nil, or_false] at hg
  unfold decodedRow
  rcases hg with hg | hg
  · rw [decodeWord_of_n1_E (congrArg Fin.val (h1.trans hg)), decodeWord_of_n1_E (congrArg Fin.val hg)]
    simp only [decodeGroupE, hkk, apply_ite (Option.map rowOf), Option.map_some, Option.map_none, rowOf]
  · rw [decodeWord_of_n1_F (congrArg Fin.val (h1.trans hg)), decodeWord_of_n1_F (congrArg Fin.val hg)]
    simp only [decodeGroupF, hkk, apply_ite (Option.map rowOf), Option.map_some, Option.map_none, rowOf]

end

/-- The masks of the map, each with the groups that it serves. -/
theorem mask_cases : ∀ row ∈ opcodeMap,
    (row.1 = 0xF000 ∧ fieldN1 row.2 ∉ ([0x0, 0x5, 0x8, 0x9, 0xE, 0xF] : List (Fin 16))) ∨
      (row.1 = 0xF00F ∧ fieldN1 row.2 ∈ ([0x5, 0x8, 0x9] : List (Fin 16))) ∨
        (row.1 = 0xF0FF ∧ fieldN1 row.2 ∈ ([0xE, 0xF] : List (Fin 16))) ∨ row.1 = 0xFFFF := by
  simp only [opcodeMap, List.forall_mem_append, List.forall_mem_cons, List.not_mem_nil, false_imp_iff, implies_true,
    and_true]
  and_intros <;> decide

/-- The match of a row, as a word, is in the row. -/
theorem decodedRow_match : ∀ row ∈ opcodeMap, decodedRow row.2 = some row := by
  have hmap : opcodeMap.map (fun row => decodedRow row.2) = opcodeMap.map some := rfl
  exact List.map_inj_left.mp hmap

theorem decodedRow_of_match {op : Word} {row : Word × Word} (hrow : row ∈ opcodeMap) (h : op &&& row.1 = row.2) :
    decodedRow op = some row := by
  rw [← decodedRow_match row hrow]
  rcases mask_cases row hrow with ⟨hm, hg⟩ | ⟨hm, hg⟩ | ⟨hm, hg⟩ | hm <;> rw [hm] at h
  · exact decodedRow_congr_of_n1 (h ▸ (fieldN1_and (by decide)).symm) hg
  · exact decodedRow_congr_of_n (h ▸ (fieldN1_and (by decide)).symm) (h ▸ (fieldN_and (by decide)).symm) hg
  · exact decodedRow_congr_of_kk (h ▸ (fieldN1_and (by decide)).symm) (h ▸ (fieldKk_and (by decide)).symm) hg
  · rw [← h]
    exact congrArg decodedRow (and_FFFF op).symm

/-- Settles O2: the mask keeps the fields by which the mux selects the row, and the other way round the word is that of
the decoded instruction, which is in its own row. -/
theorem decodeReturnsTheMatchingRow : Obligations.DecodeReturnsTheMatchingRow := by
  unfold Obligations.DecodeReturnsTheMatchingRow
  intro op
  refine ⟨fun row hrow => ⟨fun h => Option.map_eq_some_iff.mp (decodedRow_of_match hrow h), ?decoded⟩, ?fields⟩
  case decoded =>
    rintro ⟨i, hi, rfl⟩
    have hmatch := matchesRow_encode i
    rw [encode_of_decodeWord hi] at hmatch
    exact eq_of_beq hmatch
  case fields => exact fun i hi => ⟨rowOf_mem_opcodeMap i, encode_of_decodeWord hi, wf_of_decodeWord hi⟩

end Sys2Proof
end

section
/-! What the step does, one rule per case of 40_step.md R90: the bytes at `PC`, the fault of the fetch, the word that no row
matches, and the instruction, also after its word is placed at `PC` from outside (log 9). -/

namespace Sys2Proof.Machine

/-! ### The fetch -/

theorem fetch_of_bytes {s : State} {op : Word} (hpc : s.pc.toNat ≤ 0xFFE) (hhi : s.readByte s.pc.toNat = highByte op)
    (hlo : s.readByte (s.pc.toNat + 1) = lowByte op) : s.fetch = some op := by
  rw [fetch_eq_some hpc, hhi, hlo, wordOfBytes_highByte_lowByte]

/-- The fetched word is the one whose number has the byte at `PC` as its high byte (20_memory.md R52). -/
theorem fetch_of_toNat {s : State} {op : Word} (hpc : s.pc.toNat ≤ 0xFFE)
    (hop : op.toNat = (s.readByte s.pc.toNat).toNat * 256 + (s.readByte (s.pc.toNat + 1)).toNat) : s.fetch = some op := by
  rw [fetch_eq_some hpc, Option.some_inj]
  exact BitVec.eq_of_toNat_eq (by rw [wordOfBytes_toNat, hop])

theorem pc_le_of_fetch {s : State} {op : Word} (hop : s.fetch = some op) : s.pc.toNat ≤ 0xFFE := by
  by_contra hpc
  rw [fetch_eq_none.mpr (not_le.mp hpc)] at hop
  cases hop

theorem nextInstr_eq_some_iff {s : State} {i : Instr} :
    s.nextInstr = some i ↔ ∃ op, s.fetch = some op ∧ decodeWord op = some i :=
  Option.bind_eq_some_iff

/-! ### The step -/

section
variable {s : State} (hs : s.faulted = false)
include hs

theorem step_of_fetch_none (hop : s.fetch = none) : step s = .next (s.enterFault .fetchOutOfRange 0 s.pc.toNat) := by
  simp [step, runStep, hs, hop, raiseFault]

theorem step_of_unrecognized {op : Word} (hop : s.fetch = some op) (hdec : decodeWord op = none) :
    step s = .next s.advance := by
  simp [step, runStep, hs, hop, hdec, execUnrecognized]

theorem step_of_nextInstr {i : Instr} (hi : s.nextInstr = some i) : step s = exec i s := by
  obtain ⟨op, hop, hdec⟩ := nextInstr_eq_some_iff.mp hi
  exact step_of_decode hs hop hdec

theorem step_of_encode {i : Instr} (hi : i.wf = true) (hop : s.fetch = some (encode i)) : step s = exec i s :=
  step_of_decode hs hop (decodeWord_encode hi)

end

theorem State.advance_eq (s : State) : s.advance = { s with pc := Spec.pcPlus s 2 } := by
  rw [pcPlus_eq]
  rfl

/-! ### A word placed at `PC` -/

@[simp] theorem tableWord_toNat (op : Word) : tableWord 16 op.toNat = op := by
  rw [tableWord, Nat.mod_eq_of_lt op.isLt, BitVec.ofNat_toNat, BitVec.setWidth_eq]

section
variable {s : State} (hs : s.faulted = false) (hpc : s.pc.toNat ≤ 0xFFE) (op : Word)
include hs hpc

/-- Where a fetch can succeed, placing a word is storing its two bytes at `PC`. -/
theorem placeWord_eq : s.placeWord op =
    (s.storeByte s.pc.toNat (highByte op)).storeByte (s.pc.toNat + 1) (lowByte op) := by
  simp only [State.placeWord, if_neg (Nat.not_lt.mpr hpc), ← hs]

theorem placeWord_memOnly : s.placeWord op = { s with mem := (s.placeWord op).mem } := by
  rw [placeWord_eq hs hpc]
  exact State.storeByte_eq_of_memOnly (State.storeByte_eq s _ _) _ _

theorem readByte_placeWord (hm : Memory.wf s.mem) (a : Nat) : (s.placeWord op).readByte a =
    if a = s.pc.toNat + 1 then lowByte op else if a = s.pc.toNat then highByte op else s.readByte a := by
  have inMem : s.pc.toNat + 1 < Config.memSize := Nat.lt_succ_of_le (Nat.succ_le_succ hpc)
  rw [placeWord_eq hs hpc, State.readByte_storeByte (State.wf_storeByte hm _ _) inMem,
    State.readByte_storeByte hm (Nat.lt_of_succ_lt inMem)]

theorem fetch_placeWord (hm : Memory.wf s.mem) : (s.placeWord op).fetch = some op := by
  have hpc' : (s.placeWord op).pc = s.pc := by rw [placeWord_memOnly hs hpc]
  apply fetch_of_bytes <;> simp [hpc', hpc, readByte_placeWord hs hpc op hm]

end

end Sys2Proof.Machine

namespace Sys2Proof

open Machine

/-- Settles O5: the latch, the fetch and the decoder each decide one case of the step. -/
theorem stepFetchesDecodesExecutes : Obligations.StepFetchesDecodesExecutes := by
  unfold Obligations.StepFetchesDecodesExecutes
  refine ⟨?refused, ?fetchFault, ?word⟩
  case refused => exact fun s hs => step_of_faulted hs
  case fetchFault => exact fun s hs hpc => step_of_fetch_none hs (fetch_eq_none.mpr hpc)
  case word =>
    intro s op hs hpc hop
    have hfetch := fetch_of_toNat hpc hop
    refine ⟨fun i hdec => step_of_decode hs hfetch hdec, fun hdec => ?_⟩
    rw [step_of_unrecognized hs hfetch hdec, State.advance_eq]

/-- Settles O6: the fetch reads the word of the instruction, and a word decodes to the instruction it encodes; placing
the word stores its two bytes at `PC`. -/
theorem stepRunsTheInstructionAtPc : Obligations.StepRunsTheInstructionAtPc := by
  unfold Obligations.StepRunsTheInstructionAtPc
  refine ⟨?standing, ?placed⟩
  case standing => exact fun s i hs hi hpc hhi hlo => step_of_encode hs hi (fetch_of_bytes hpc hhi hlo)
  case placed =>
    intro s i hi hm hs hpc
    simp only [State.withFetchWord, tableWord_toNat]
    have hmem := placeWord_memOnly hs hpc (encode i)
    have hfaulted : (s.placeWord (encode i)).faulted = false := by rw [hmem, hs]
    refine ⟨step_of_encode hfaulted hi (fetch_placeWord hs hpc _ hm), hmem, fun a ha ha' => ?_⟩
    rw [readByte_placeWord hs hpc _ hm, if_neg ha', if_neg ha]

end Sys2Proof
end

section
/-! The five results of a step (40_step.md R96), each with the condition on which it is returned. -/

namespace Sys2Proof.Machine

theorem noKey_iff {s : State} : Spec.NoKey s ↔ s.lowestKey = none := by
  rw [State.lowestKey_eq_none]
  exact ⟨fun h k => h k.val k.isLt, fun h k hk => h ⟨k, hk⟩⟩

theorem waitsForKey_iff {i : Instr} {s : State} :
    waitsForKey i s = true ↔ (∃ x, i = .ldKey x) ∧ Spec.NoKey s := by
  rw [noKey_iff]
  cases i with
  | ldKey x => simp [waitsForKey]
  | _ => simp [waitsForKey]

/-- A waiting Fx0A leaves the state (45_keypad_timers.md R193). -/
theorem step_of_waiting {s : State} {x : Reg} (hs : s.faulted = false) (hi : s.nextInstr = some (.ldKey x))
    (hk : Spec.NoKey s) : step s = .next s := by
  rw [step_of_nextInstr hs hi, exec_of_no_fault rfl, completed_ldKey_of_none (noKey_iff.mp hk)]

/-! ### The result on each condition -/

theorem stepResult_of_faulted {s : State} (hs : s.faulted = true) : stepResult s = .refusedFaulted := by
  simp only [stepResult, step_of_faulted hs]

section
variable {s t : State} (hstep : step s = .next t)
include hstep

theorem stepResult_of_fault (ht : t.faulted = true) : stepResult s = .fault t.faultRecord.cause := by
  simp only [stepResult, hstep, ht, if_true]

theorem stepResult_of_completed (ht : t.faulted = false) {i : Instr} (hi : s.nextInstr = some i) :
    stepResult s = if waitsForKey i s then .waitingKey else .ok := by
  simp [stepResult, hstep, ht, hi]

end

theorem stepResult_of_unrecognized {s : State} (hs : s.faulted = false) {op : Word} (hop : s.fetch = some op)
    (hdec : decodeWord op = none) : stepResult s = .okUnrecognized := by
  simp [stepResult, step_of_unrecognized hs hop hdec, State.nextInstr, hop, hdec, hs]

/-! ### The conditions -/

/-- The condition on which a step of `s` returns the result (R96). -/
def Returns (s : State) (r : StepResult) : Prop :=
  match r with
  | .refusedFaulted => s.faulted = true
  | .fault c => s.faulted = false ∧ ∃ t, step s = .next t ∧ t.faulted = true ∧ t.faultRecord.cause = c
  | .okUnrecognized => s.faulted = false ∧ ∃ op, s.fetch = some op ∧ decodeWord op = none
  | .waitingKey => s.faulted = false ∧ (∃ x, s.nextInstr = some (.ldKey x)) ∧ Spec.NoKey s
  | .ok => s.faulted = false ∧ ∃ i t, s.nextInstr = some i ∧ step s = .next t ∧
      t.faulted = false ∧ ¬((∃ x, i = .ldKey x) ∧ Spec.NoKey s)

theorem stepResult_of_returns {s : State} {r : StepResult} (h : Returns s r) : stepResult s = r := by
  cases r with
  | refusedFaulted => exact stepResult_of_faulted h
  | fault c =>
    obtain ⟨-, t, hstep, ht, rfl⟩ := h
    exact stepResult_of_fault hstep ht
  | okUnrecognized =>
    obtain ⟨hs, op, hop, hdec⟩ := h
    exact stepResult_of_unrecognized hs hop hdec
  | waitingKey =>
    obtain ⟨hs, ⟨x, hi⟩, hk⟩ := h
    rw [stepResult_of_completed (step_of_waiting hs hi hk) hs hi, if_pos (waitsForKey_iff.mpr ⟨⟨x, rfl⟩, hk⟩)]
  | ok =>
    obtain ⟨-, i, t, hi, hstep, ht, hwait⟩ := h
    rw [stepResult_of_completed hstep ht hi, if_neg (waitsForKey_iff.not.mpr hwait)]

/-- Every state meets one of the five conditions. -/
theorem exists_returns (s : State) : ∃ r, Returns s r := by
  cases hs : s.faulted with
  | true => exact ⟨.refusedFaulted, hs⟩
  | false =>
    obtain ⟨t, hstep⟩ := step_of_not_faulted hs
    cases ht : t.faulted with
    | true => exact ⟨.fault _, hs, t, hstep, ht, rfl⟩
    | false =>
      obtain ⟨-, ⟨-, rfl⟩ | ⟨op, hop, ⟨hdec, -⟩ | ⟨i, hdec, -⟩⟩⟩ := step_cases hstep
      · cases ht
      · exact ⟨.okUnrecognized, hs, op, hop, hdec⟩
      · have hi := nextInstr_eq_some_iff.mpr ⟨op, hop, hdec⟩
        by_cases hwait : (∃ x, i = .ldKey x) ∧ Spec.NoKey s
        · obtain ⟨⟨x, rfl⟩, hk⟩ := hwait
          exact ⟨.waitingKey, hs, ⟨x, hi⟩, hk⟩
        · exact ⟨.ok, hs, i, t, hi, hstep, ht, hwait⟩

/-- The five conditions exclude each other, since the result is one. -/
theorem stepResult_eq_iff (s : State) (r : StepResult) : stepResult s = r ↔ Returns s r := by
  refine ⟨?_, stepResult_of_returns⟩
  rintro rfl
  obtain ⟨r, hr⟩ := exists_returns s
  rwa [stepResult_of_returns hr]

end Sys2Proof.Machine

namespace Sys2Proof

open Machine

/-- Settles O7: the zero word decodes to nothing by evaluation, and an unrecognized word takes the step's no-op case and
the condition of its own result. -/
theorem unrecognizedWordIsANoOp : Obligations.UnrecognizedWordIsANoOp := by
  unfold Obligations.UnrecognizedWordIsANoOp
  refine ⟨by decide, fun s op hs hop hdec => ⟨?_, stepResult_of_unrecognized hs hop hdec⟩⟩
  rw [step_of_unrecognized hs hop hdec, State.advance_eq]

/-- Settles O8: each condition gives its result, and every state meets one of the five conditions. -/
theorem stepResultsAreTheFive : Obligations.StepResultsAreTheFive := by
  unfold Obligations.StepResultsAreTheFive
  intro s
  refine ⟨stepResult_eq_iff s .refusedFaulted, fun c => stepResult_eq_iff s (.fault c),
    stepResult_eq_iff s .okUnrecognized, stepResult_eq_iff s .waitingKey, fun hwait => ?_, stepResult_eq_iff s .ok⟩
  obtain ⟨hs, ⟨x, hi⟩, hk⟩ := (stepResult_eq_iff s .waitingKey).mp hwait
  exact step_of_waiting hs hi hk

end Sys2Proof
end

section
/-! The next `PC` (40_step.md R93) and its bounds (R98, 41_flow.md R100). -/

namespace Sys2Proof.Machine

/-- A step that enters the faulted state changes the latch and the record alone (60_exceptions.md R213). -/
theorem step_faulted {s t : State} (hstep : step s = .next t) (ht : t.faulted = true) :
    ∃ c op a, t = s.enterFault c op a := by
  obtain ⟨hs, ⟨-, rfl⟩ | ⟨op, -, ⟨-, rfl⟩ | ⟨i, -, hi⟩⟩⟩ := step_cases hstep
  · exact ⟨_, _, _, rfl⟩
  · cases hs.symm.trans ht
  · rcases exec_answers hi with ⟨-, rfl⟩ | ⟨c, a, -, rfl⟩
    · cases hs.symm.trans ((completed_faulted i s).symm.trans ht)
    · exact ⟨_, _, _, rfl⟩

/-- A step that runs an instruction and raises no fault completes it. -/
theorem step_completed {s t : State} (hstep : step s = .next t) (ht : t.faulted = false) {i : Instr}
    (hi : s.nextInstr = some i) : t = completed i s := by
  obtain ⟨hs, -⟩ := step_cases hstep
  rw [step_of_nextInstr hs hi] at hstep
  rcases exec_answers hstep with ⟨-, rfl⟩ | ⟨c, a, -, rfl⟩
  · rfl
  · cases ht

/-! ### The bounds -/

theorem pcPlus_toNat {s : State} (h : s.pc.toNat ≤ 0xFFE) {k : Nat} (hk : k ≤ 4) :
    (Spec.pcPlus s k).toNat = s.pc.toNat + k :=
  (BitVec.toNat_ofNat _ _).trans (Nat.mod_eq_of_lt (by omega))

/-- The policy's `PC` after an instruction that was fetched: past the fetch by 4 at most, an address, an address plus a
byte, or the return address that is popped. -/
theorem nextPc_le {i : Instr} {s : State} (h : s.PcInv) (hpc : s.pc.toNat ≤ 0xFFE) (hf : instrFault i s = none) :
    (Spec.nextPc i s).toNat ≤ 0x10FE := by
  have two : (Spec.pcPlus s 2).toNat ≤ 0x10FE := by rw [pcPlus_toNat hpc (by decide)]; omega
  have four : (Spec.pcPlus s 4).toNat ≤ 0x10FE := by rw [pcPlus_toNat hpc (by decide)]; omega
  have skip (c : Bool) : (if c then Spec.pcPlus s 4 else Spec.pcPlus s 2).toNat ≤ 0x10FE := by split <;> assumption
  cases i with
  | ret =>
    have hsp : 0 < s.sp.val := sp_pos_of_ne fun hsp => by simp [instrFault, hsp] at hf
    exact (h.stack _ (Nat.sub_lt hsp Nat.one_pos)).trans (by decide)
  | jp nnn | call nnn =>
    have := nnn.isLt
    simp only [Spec.nextPc, BitVec.toNat_ofNat]
    omega
  | jpV0 nnn =>
    have := nnn.isLt
    have := (s.reg 0).isLt
    simp only [Spec.nextPc, BitVec.toNat_ofNat]
    omega
  | seImm | sneImm | seReg | sneReg | skp | sknp => exact skip _
  | ldKey x =>
    simp only [Spec.nextPc]
    split
    · exact two
    · exact h.pc
  | _ => exact two

/-- 00EE uncovers no entry, and 2nnn pushes the address behind a fetch; the others leave the stack. -/
theorem stack_completed_le {i : Instr} {s : State} (h : s.PcInv) (hpc : s.pc.toNat ≤ 0xFFE) (hf : instrFault i s = none) :
    ∀ j, j < (completed i s).sp.val → ((completed i s).stackAt j).toNat ≤ 0x1000 := by
  cases i with
  | ret =>
    intro j hj
    rw [completed, State.sp_popToPc_val] at hj
    exact h.stack j (by omega)
  | call nnn =>
    intro j hj
    have hsp : s.sp ≠ 16 := fun hsp => by simp [instrFault, hsp] at hf
    have hret : (s.pc + 2).toNat ≤ 0x1000 := by
      rw [← show Spec.pcPlus s 2 = s.pc + 2 from pcPlus_eq s 2, pcPlus_toNat hpc (by decide)]
      omega
    have hj : j < s.sp.val + 1 := State.sp_push_val hsp (s.pc + 2) ▸ hj
    have hat : (completed (.call nnn) s).stackAt j = if j = s.sp.val then s.pc + 2 else s.stackAt j :=
      State.stackAt_push hsp (s.pc + 2) j
    rw [hat]
    split
    · exact hret
    · exact h.stack j (by omega)
  | _ => exact h.stack

theorem State.PcInv.enterFault {s : State} (h : s.PcInv) (c : FaultCause) (op : Word) (a : Nat) :
    (s.enterFault c op a).PcInv :=
  ⟨h.pc, h.stack⟩

theorem State.PcInv.advance {s : State} (h : s.PcInv) (hpc : s.pc.toNat ≤ 0xFFE) : s.advance.PcInv where
  pc := by
    rw [State.advance_eq]
    exact (pcPlus_toNat hpc (by decide)).trans_le (by omega)
  stack := h.stack

theorem exec_keeps_pcInv {i : Instr} {s t : State} (h : s.PcInv) (hpc : s.pc.toNat ≤ 0xFFE)
    (ht : exec i s = .next t) : t.PcInv := by
  rcases exec_answers ht with ⟨hf, rfl⟩ | ⟨c, a, -, rfl⟩
  · exact ⟨completed_pc i s ▸ nextPc_le h hpc hf, stack_completed_le h hpc hf⟩
  · exact h.enterFault c _ a

theorem step_keeps_pcInv {s t : State} (h : s.PcInv) (ht : step s = .next t) : t.PcInv := by
  obtain ⟨-, ⟨-, rfl⟩ | ⟨op, hop, ⟨-, rfl⟩ | ⟨i, -, hi⟩⟩⟩ := step_cases ht
  · exact h.enterFault _ _ _
  · exact h.advance (pc_le_of_fetch hop)
  · exact exec_keeps_pcInv h (pc_le_of_fetch hop) hi

theorem resetOf_pcInv {p : Params} (hp : p.resetPc.toNat ≤ 0x10FE) (draws : Nat) : (State.resetOf p draws).PcInv :=
  ⟨hp, fun j hj => absurd hj (Nat.not_lt_zero j)⟩

end Sys2Proof.Machine

namespace Sys2Proof

open Machine

/-- Settles O9: a fault entry leaves `PC`, a completed instruction sets it by the table, an unrecognized word advances it. -/
theorem programCounterPolicy : Obligations.ProgramCounterPolicy := by
  unfold Obligations.ProgramCounterPolicy
  intro s t hs hstep
  refine ⟨?faulting, ?completing, ?unrecognized⟩
  case faulting =>
    intro ht
    obtain ⟨c, op, a, rfl⟩ := step_faulted hstep ht
    rfl
  case completing =>
    intro i hi ht
    rw [step_completed hstep ht hi, completed_pc]
  case unrecognized =>
    intro op hop hdec
    rw [step_of_unrecognized hs hop hdec, Host.Outcome.next.injEq, State.advance_eq] at hstep
    rw [← hstep]

/-- Settles O49: a successful fetch bounds `PC` by 0xFFE, hence what is pushed and where the next `PC` can be. -/
theorem stepKeepsPcBounds : Obligations.StepKeepsPcBounds := by
  unfold Obligations.StepKeepsPcBounds
  exact ⟨fun s t h ht => step_keeps_pcInv h ht, fun p k hp => resetOf_pcInv hp k⟩

end Sys2Proof
end

section
/-! The encoding clause "mask m, match p" of an instruction's rule, from the shape of its word: the words of a row are those
that the row's instruction, its operands read from the word, encodes to (30_encoding.md R70, R73). -/

namespace Sys2Proof

open Machine

/-! ### The fields as the statements read them -/

theorem Spec.nnn_eq (op : Word) : Spec.nnn op = fieldNnn op :=
  BitVec.eq_of_toNat_eq (by rw [fieldNnn_toNat, Spec.nnn, BitVec.toNat_ofNat])

theorem Spec.kk_eq (op : Word) : Spec.kk op = fieldKk op :=
  BitVec.eq_of_toNat_eq (by rw [fieldKk_toNat, Spec.kk, BitVec.toNat_ofNat])

theorem Spec.x_eq (op : Word) : Spec.x op = fieldX op := Fin.ext (fieldX_val op).symm

theorem Spec.y_eq (op : Word) : Spec.y op = fieldY op := Fin.ext (fieldY_val op).symm

/-! ### The words of a row -/

/-- It is enough that the operands read from a word of the row, put back in the pattern, give the word. -/
theorem encoded_of_encode {mask pat : Word} {mk : Word → Instr} (hrow : ∀ op, rowOf (mk op) = (mask, pat))
    (hwf : ∀ op, (mk op).wf = true) (h : ∀ op, op &&& mask = pat → encode (mk op) = op) :
    Spec.Encoded mask pat mk := by
  intro op
  refine ⟨fun hop => ?match_decodes, fun hdec => ?decoded_matches⟩
  case match_decodes =>
    have hdec := decodeWord_encode (hwf op)
    rwa [h op hop] at hdec
  case decoded_matches =>
    have hmatch := matchesRow_encode (mk op)
    rw [encode_of_decodeWord hdec, hrow] at hmatch
    exact eq_of_beq hmatch

/-- The pattern `cnnn`. -/
theorem encoded_nnn {pat : Word} {mk : Addr → Instr} (hrow : ∀ a, rowOf (mk a) = (0xF000, pat))
    (hwf : ∀ a, (mk a).wf = true) (henc : ∀ a, encode (mk a) = BitVec.ofNat 4 (fieldN1 pat).val ++ a) :
    Spec.Encoded 0xF000 pat fun op => mk (Spec.nnn op) := by
  refine encoded_of_encode (fun _ => hrow _) (fun _ => hwf _) fun op hop => ?_
  have h1 : fieldN1 op = fieldN1 pat := hop ▸ (fieldN1_and (by decide)).symm
  rw [henc, Spec.nnn_eq]
  exact append_nnn (congrArg Fin.val h1)

/-- The pattern `cxkk`. -/
theorem encoded_xkk {pat : Word} {mk : Reg → Byte → Instr} (hrow : ∀ x kk, rowOf (mk x kk) = (0xF000, pat))
    (hwf : ∀ x kk, (mk x kk).wf = true)
    (henc : ∀ x kk, encode (mk x kk) = BitVec.ofNat 4 (fieldN1 pat).val ++ nibble x ++ kk) :
    Spec.Encoded 0xF000 pat fun op => mk (Spec.x op) (Spec.kk op) := by
  refine encoded_of_encode (fun _ => hrow _ _) (fun _ => hwf _ _) fun op hop => ?_
  have h1 : fieldN1 op = fieldN1 pat := hop ▸ (fieldN1_and (by decide)).symm
  rw [henc, Spec.x_eq, Spec.kk_eq]
  exact append_xkk (congrArg Fin.val h1) rfl

/-- The pattern `cxyd`. -/
theorem encoded_xy {pat : Word} {mk : Reg → Reg → Instr} (hrow : ∀ x y, rowOf (mk x y) = (0xF00F, pat))
    (hwf : ∀ x y, (mk x y).wf = true)
    (henc : ∀ x y, encode (mk x y) =
      BitVec.ofNat 4 (fieldN1 pat).val ++ nibble x ++ nibble y ++ BitVec.ofNat 4 (fieldN pat).val) :
    Spec.Encoded 0xF00F pat fun op => mk (Spec.x op) (Spec.y op) := by
  refine encoded_of_encode (fun _ => hrow _ _) (fun _ => hwf _ _) fun op hop => ?_
  have h1 : fieldN1 op = fieldN1 pat := hop ▸ (fieldN1_and (by decide)).symm
  have hn : fieldN op = fieldN pat := hop ▸ (fieldN_and (by decide)).symm
  rw [henc, Spec.x_eq, Spec.y_eq]
  exact append_xyn (congrArg Fin.val h1) (congrArg Fin.val hn)

/-- A row whose mask keeps every bit is one word. -/
theorem encoded_word {i : Instr} (hrow : rowOf i = (0xFFFF, encode i)) (hwf : i.wf = true) :
    Spec.Encoded 0xFFFF (encode i) fun _ => i :=
  encoded_of_encode (fun _ => hrow) (fun _ => hwf) fun op hop => hop.symm.trans (and_FFFF op)

end Sys2Proof
end

section
/-! Control transfer (41_flow.md R100-R107): the return and the call with their faults, the jumps and the register skips. -/

namespace Sys2Proof.Machine

/-! ### The return stack (R100, R102) -/

theorem instrFault_ret_of_empty {s : State} (h : s.sp.val = 0) : instrFault .ret s = some (.stackUnderflow, 0) :=
  if_pos (Fin.ext h)

theorem instrFault_ret_of_pos {s : State} (h : 0 < s.sp.val) : instrFault .ret s = none :=
  if_neg fun hsp => h.ne' (congrArg Fin.val hsp)

theorem instrFault_call_of_full {s : State} (h : s.sp.val = 16) (nnn : Addr) :
    instrFault (.call nnn) s = some (.stackOverflow, 0) :=
  if_pos (Fin.ext h)

theorem sp_ne_of_lt {s : State} (h : s.sp.val < 16) : s.sp ≠ 16 := fun hsp => h.ne (congrArg Fin.val hsp)

theorem instrFault_call_of_lt {s : State} (h : s.sp.val < 16) (nnn : Addr) : instrFault (.call nnn) s = none :=
  if_neg (sp_ne_of_lt h)

theorem encode_call (nnn : Addr) : encode (.call nnn) = u16 (0x2000 + nnn.toNat) := by
  apply BitVec.eq_of_toNat_eq
  have := nnn.isLt
  rw [encode, toNat_nnn, BitVec.toNat_ofNat, BitVec.toNat_ofNat]
  omega

/-! ### The jumps and the skips (R101, R103, R108) -/

theorem exec_jp (nnn : Addr) (s : State) : exec (.jp nnn) s = .next { s with pc := u16 nnn.toNat } := by
  rw [exec_of_no_fault rfl, completed, State.jump, zextAddr_eq]

/-- The sum does not wrap, hence is not reduced: it is at most 0x10FE (R103). -/
theorem indexedTarget_toNat (nnn : Addr) (s : State) : (indexedTarget nnn s).toNat = nnn.toNat + (s.reg 0).toNat := by
  have := nnn.isLt
  have := (s.reg 0).isLt
  rw [indexedTarget_eq, BitVec.toNat_ofNat, Nat.mod_eq_of_lt (by omega)]

/-- A skip changes `PC` alone, by the condition that its test decides. -/
theorem State.skipIf_eq {c : Bool} {p : Prop} [Decidable p] (h : c = true ↔ p) (s : State) :
    s.skipIf c = { s with pc := if p then Spec.pcPlus s 4 else Spec.pcPlus s 2 } := by
  simp only [State.skipIf, h, pcPlus_eq]
  rfl

/-- An instruction that raises no fault and completes in a skip. -/
theorem exec_of_skip {i : Instr} {s : State} (hf : instrFault i s = none) {c : Bool}
    (hskip : completed i s = s.skipIf c) {p : Prop} [Decidable p] (h : c = true ↔ p) :
    exec i s = .next { s with pc := if p then Spec.pcPlus s 4 else Spec.pcPlus s 2 } := by
  rw [exec_of_no_fault hf, hskip, State.skipIf_eq h]

end Sys2Proof.Machine

namespace Sys2Proof

open Machine

/-- Settles O15: the test of `SP` decides between the fault entry and the pop. -/
theorem returnPopsTheStack : Obligations.ReturnPopsTheStack := by
  unfold Obligations.ReturnPopsTheStack
  refine ⟨encoded_word (i := .ret) rfl rfl, fun s => ⟨?underflow, ?pop⟩⟩
  case underflow => exact fun hsp => exec_of_instrFault (instrFault_ret_of_empty hsp)
  case pop =>
    exact fun hsp => ⟨_, exec_of_no_fault (instrFault_ret_of_pos hsp), State.sp_popToPc_val s, rfl⟩

/-- Settles O17: the test of `SP` decides between the fault entry and the push, which writes one entry of the stack. -/
theorem callPushesTheReturnAddress : Obligations.CallPushesTheReturnAddress := by
  unfold Obligations.CallPushesTheReturnAddress
  refine ⟨encoded_nnn (mk := .call) (fun _ => rfl) (fun _ => rfl) fun _ => rfl, fun nnn s => ⟨?overflow, ?push⟩⟩
  case overflow =>
    intro hsp
    rw [← encode_call]
    exact exec_of_instrFault (instrFault_call_of_full hsp nnn)
  case push =>
    intro hsp
    have hne := sp_ne_of_lt hsp
    refine ⟨_, exec_of_no_fault (instrFault_call_of_lt hsp nnn), State.sp_push_val hne (s.pc + 2), ?_, ?_⟩
    · rw [pcPlus_eq]
      exact State.stackAt_push hne _
    · rw [← zextAddr_eq]
      rfl

/-- Settles O18: the call leaves the return address as the entry that the return pops, and `SP` goes up and down by one. -/
theorem returnUndoesCall : Obligations.ReturnUndoesCall := by
  unfold Obligations.ReturnUndoesCall
  intro nnn s hsp
  obtain ⟨t, hcall, htsp, hstack, ht⟩ := (callPushesTheReturnAddress.2 nnn s).2 hsp
  obtain ⟨u, hret, husp, hu⟩ := (returnPopsTheStack.2 t).2 (by omega)
  have hsame : u.sp = s.sp := Fin.ext (by omega)
  have hpc : t.stackAt (t.sp.val - 1) = Spec.pcPlus s 2 := by
    rw [htsp, Nat.add_sub_cancel, hstack, if_pos rfl]
  rw [hsame, hpc] at hu
  refine ⟨t, u, hcall, hret, ?frame, fun j hj => ?entries⟩
  case frame => rw [hu, ht]
  case entries =>
    rw [hu]
    exact (hstack j).trans (if_neg hj)

/-- Settles O16: 1nnn sets `PC` to its operand, and the sum of Bnnn is too small to wrap. -/
theorem jumpsSetOnlyPc : Obligations.JumpsSetOnlyPc := by
  unfold Obligations.JumpsSetOnlyPc
  refine ⟨encoded_nnn (mk := .jp) (fun _ => rfl) (fun _ => rfl) fun _ => rfl,
    encoded_nnn (mk := .jpV0) (fun _ => rfl) (fun _ => rfl) fun _ => rfl, fun nnn s => ⟨exec_jp nnn s, ?_⟩⟩
  exact ⟨_, exec_of_no_fault rfl, rfl, indexedTarget_toNat nnn s⟩

/-- Settles O19: each of the four is a skip whose test decides its condition. -/
theorem skipsOnRegisters : Obligations.SkipsOnRegisters := by
  unfold Obligations.SkipsOnRegisters
  refine ⟨encoded_xkk (mk := .seImm) (fun _ _ => rfl) (fun _ _ => rfl) fun _ _ => rfl,
    encoded_xkk (mk := .sneImm) (fun _ _ => rfl) (fun _ _ => rfl) fun _ _ => rfl,
    encoded_xy (mk := .seReg) (fun _ _ => rfl) (fun _ _ => rfl) fun _ _ => rfl,
    encoded_xy (mk := .sneReg) (fun _ _ => rfl) (fun _ _ => rfl) fun _ _ => rfl, fun x y kk s =>
      ⟨?seImm, ?sneImm, ?seReg, ?sneReg⟩⟩
  case seImm | seReg => exact exec_of_skip rfl rfl beq_iff_eq
  case sneImm | sneReg => exact exec_of_skip rfl rfl bne_iff_ne

end Sys2Proof
end

section
/-! Register loads and the ALU (42_alu.md R121-R132): the values and flags as numbers, and the two shapes in which every one
of these instructions completes, Vx alone or Vx and then VF. -/

namespace Sys2Proof.Machine

/-! ### The values and the flags as numbers -/

/-- A difference modulo 256 (R128, R130). -/
theorem sub_eq_u8 (a b : Byte) : a - b = u8 (a.toNat + 256 - b.toNat) := by
  apply BitVec.eq_of_toNat_eq
  have := b.isLt
  rw [BitVec.toNat_sub, BitVec.toNat_ofNat]
  omega

theorem ushiftRight_one_eq_u8 (v : Byte) : v >>> 1 = u8 (v.toNat / 2) := by
  apply BitVec.eq_of_toNat_eq
  have := v.isLt
  rw [BitVec.toNat_ushiftRight, Nat.shiftRight_eq_div_pow, BitVec.toNat_ofNat]
  omega

theorem shiftLeft_one_eq_u8 (v : Byte) : v <<< 1 = u8 (2 * v.toNat) := by
  apply BitVec.eq_of_toNat_eq
  rw [BitVec.toNat_shiftLeft, Nat.shiftLeft_eq, BitVec.toNat_ofNat, Nat.mul_comm, Nat.pow_one]

theorem flagOf_eq_bit (c : Bool) : flagOf c = Spec.bit c := by cases c <;> rfl

theorem carryFlag_eq_bit (a b : Byte) : carryFlag a b = Spec.bit (decide (255 < a.toNat + b.toNat)) :=
  flagOf_eq_bit _

theorem borrowFlag_eq_subFlag (mode : BorrowFlagMode) (a b : Byte) :
    borrowFlag mode a b = Spec.subFlag mode a.toNat b.toNat := by
  cases mode <;> exact flagOf_eq_bit _

/-- Bit 0, which a shift right drops (R129). -/
theorem shiftedOutRight_eq_u8 (v : Byte) : shiftedOutRight v = u8 (v.toNat % 2) := by
  apply BitVec.eq_of_toNat_eq
  have hone : BitVec.toNat (1 : Byte) = 1 := rfl
  rw [shiftedOutRight, BitVec.toNat_and, hone, Nat.and_one_is_mod, BitVec.toNat_ofNat]
  omega

/-- Bit 7, which a shift left drops (R131): bit 0 of the quotient by 128, itself below 2. -/
theorem shiftedOutLeft_eq_u8 (v : Byte) : shiftedOutLeft v = u8 (v.toNat / 128) := by
  have := v.isLt
  calc
    shiftedOutLeft v = u8 ((v >>> 7).toNat % 2) := shiftedOutRight_eq_u8 (v >>> 7)
    _ = u8 (v.toNat / 128 % 2) := by rw [BitVec.toNat_ushiftRight, Nat.shiftRight_eq_div_pow]
    _ = u8 (v.toNat / 128) := by rw [Nat.mod_eq_of_lt (by omega)]

theorem shiftOperand_toNat (s : State) (x y : Reg) : (shiftOperand s x y).toNat = Spec.shifted s x y := by
  unfold shiftOperand Spec.shifted
  cases s.params.shiftSource <;> rfl

/-! ### The two shapes of completion -/

section
variable {i : Instr} {s : State} {x : Reg} {b f : Byte}

/-- An instruction that raises no fault and completes in a write of Vx. -/
theorem exec_of_setReg (hf : instrFault i s = none) (hset : completed i s = (s.setReg x b).advance) :
    ∃ t, exec i s = .next t ∧ Spec.RegsOnly s t ∧ ∀ r, t.reg r = if r = x then b else s.reg r :=
  ⟨(s.setReg x b).advance, hset ▸ exec_of_no_fault hf, State.advance_eq _, fun r => State.reg_setReg s x r b⟩

/-- The same for a value described by its bits `g`. -/
theorem exec_of_setReg_bits (hf : instrFault i s = none) (hset : completed i s = (s.setReg x b).advance)
    {g : Nat → Bool} (hbits : ∀ k, b.getLsbD k = g k) :
    ∃ t, exec i s = .next t ∧ Spec.RegsOnly s t ∧ (∀ r, r ≠ x → t.reg r = s.reg r) ∧ ∀ k, (t.reg x).getLsbD k = g k := by
  obtain ⟨t, hexec, honly, hreg⟩ := exec_of_setReg hf hset
  exact ⟨t, hexec, honly, fun r hr => (hreg r).trans (if_neg hr), fun k => by rw [hreg, if_pos rfl, hbits]⟩

/-- An instruction that raises no fault and completes in a write of Vx and then of the flag to VF, which stays for x = 15
(10_state.md R21). -/
theorem exec_of_setRegAndFlag (hf : instrFault i s = none)
    (hset : completed i s = (s.setRegAndFlag x b f).advance) :
    ∃ t, exec i s = .next t ∧ Spec.RegsOnly s t ∧
      ∀ r, t.reg r = if r = 15 then f else if r = x then b else s.reg r :=
  ⟨(s.setRegAndFlag x b f).advance, hset ▸ exec_of_no_fault hf, State.advance_eq _,
    fun r => State.reg_setRegAndFlag s x r b f⟩

end

end Sys2Proof.Machine

namespace Sys2Proof

open Machine

/-- Settles O23: the flag is written last, and the sum of two bytes is their unbounded sum modulo 256. -/
theorem addWritesSumAndCarry : Obligations.AddWritesSumAndCarry := by
  unfold Obligations.AddWritesSumAndCarry
  refine ⟨encoded_xy (mk := .addReg) (fun _ _ => rfl) (fun _ _ => rfl) fun _ _ => rfl, fun x y s => ?_⟩
  simp only [← BitVec.add_def, ← carryFlag_eq_bit]
  exact exec_of_setRegAndFlag rfl rfl

/-- Settles O24: both subtracts write one difference and its borrow flag, with the operands exchanged. -/
theorem subtractsWriteDifferenceAndBorrow : Obligations.SubtractsWriteDifferenceAndBorrow := by
  unfold Obligations.SubtractsWriteDifferenceAndBorrow
  refine ⟨encoded_xy (mk := .subReg) (fun _ _ => rfl) (fun _ _ => rfl) fun _ _ => rfl,
    encoded_xy (mk := .subn) (fun _ _ => rfl) (fun _ _ => rfl) fun _ _ => rfl, fun x y s => ?_⟩
  simp only [← sub_eq_u8, ← borrowFlag_eq_subFlag]
  exact ⟨exec_of_setRegAndFlag rfl rfl, exec_of_setRegAndFlag rfl rfl⟩

/-- Settles O25: the two shifts differ in the result and in the dropped bit, both of the register of `SHIFT_SOURCE`. -/
theorem shiftsWriteResultAndDroppedBit : Obligations.ShiftsWriteResultAndDroppedBit := by
  unfold Obligations.ShiftsWriteResultAndDroppedBit
  refine ⟨encoded_xy (mk := .shr) (fun _ _ => rfl) (fun _ _ => rfl) fun _ _ => rfl,
    encoded_xy (mk := .shl) (fun _ _ => rfl) (fun _ _ => rfl) fun _ _ => rfl, fun x y s => ?_⟩
  simp only [← shiftOperand_toNat, ← shiftedOutRight_eq_u8, ← ushiftRight_one_eq_u8, ← shiftedOutLeft_eq_u8,
    ← shiftLeft_one_eq_u8]
  exact ⟨exec_of_setRegAndFlag rfl rfl, exec_of_setRegAndFlag rfl rfl⟩

/-- Settles O21: each of the three writes Vx alone; the sum of two bytes is their unbounded sum modulo 256. -/
theorem loadsAndAddImmediateWriteVx : Obligations.LoadsAndAddImmediateWriteVx := by
  unfold Obligations.LoadsAndAddImmediateWriteVx
  refine ⟨encoded_xkk (mk := .ldImm) (fun _ _ => rfl) (fun _ _ => rfl) fun _ _ => rfl,
    encoded_xkk (mk := .addImm) (fun _ _ => rfl) (fun _ _ => rfl) fun _ _ => rfl,
    encoded_xy (mk := .ldReg) (fun _ _ => rfl) (fun _ _ => rfl) fun _ _ => rfl, fun x y kk s => ?_⟩
  simp only [← BitVec.add_def]
  exact ⟨exec_of_setReg rfl rfl, exec_of_setReg rfl rfl, exec_of_setReg rfl rfl⟩

/-- Settles O22: each of the three writes Vx alone, and its word operation acts bit by bit. -/
theorem logicOperationsActBitwise : Obligations.LogicOperationsActBitwise := by
  unfold Obligations.LogicOperationsActBitwise
  refine ⟨encoded_xy (mk := .orReg) (fun _ _ => rfl) (fun _ _ => rfl) fun _ _ => rfl,
    encoded_xy (mk := .andReg) (fun _ _ => rfl) (fun _ _ => rfl) fun _ _ => rfl,
    encoded_xy (mk := .xorReg) (fun _ _ => rfl) (fun _ _ => rfl) fun _ _ => rfl, fun x y s => ⟨?or, ?and, ?xor⟩⟩
  case or => exact exec_of_setReg_bits rfl rfl fun _ => BitVec.getLsbD_or
  case and => exact exec_of_setReg_bits rfl rfl fun _ => BitVec.getLsbD_and
  case xor => exact exec_of_setReg_bits rfl rfl fun _ => BitVec.getLsbD_xor

/-- Settles O26: Cxkk writes Vx alone and counts the draw; its mask acts bit by bit on the drawn byte, whatever it is. -/
theorem randomByteIsMasked : Obligations.RandomByteIsMasked := by
  unfold Obligations.RandomByteIsMasked
  refine ⟨encoded_xkk (mk := .rnd) (fun _ _ => rfl) (fun _ _ => rfl) fun _ _ => rfl, fun x kk s => ?_⟩
  have hreg (r : Reg) : (completed (.rnd x kk) s).reg r = if r = x then Config.rand8 s.draws &&& kk else s.reg r :=
    State.reg_setReg s x r _
  refine ⟨_, exec_of_no_fault rfl, fun k => ?masked, fun r hr => (hreg r).trans (if_neg hr), State.advance_eq _⟩
  case masked => rw [hreg, if_pos rfl, BitVec.getLsbD_and]

end Sys2Proof
end

section
/-! Index register and memory instructions (43_index_memory.md R150-R156): the range check of a block access with its lowest
bad address, said once, then what each instruction leaves when its block is in memory. -/

namespace Sys2Proof.Machine

/-! ### The words `Fxkk` -/

/-- The word that a faulting Fx33, Fx55 or Fx65 records, as a number. -/
theorem append_F_xkk (x : Reg) (kk : Byte) : (0xF#4 ++ nibble x ++ kk : Word) = u16 (0xF000 + kk.toNat + x.val * 256) := by
  apply BitVec.eq_of_toNat_eq
  have := x.isLt
  have := kk.isLt
  rw [toNat_xkk, nibble_toNat, BitVec.toNat_ofNat, BitVec.toNat_ofNat]
  omega

/-! ### The range check of a block access (R156) -/

/-- A block that reaches above 0xFFF faults with its lowest address there, `I` itself or 0x1000. -/
theorem blockFault_of_lt {k : Nat} {s : State} (hk : k ≠ 0) (h : 0x1000 < s.i.toNat + k) :
    blockFault k s = some (.memoryOutOfRange, max s.i.toNat 0x1000) := by
  rw [blockFault, firstOutOfRange_eq, if_neg hk]
  by_cases hbase : 0xFFF < s.i.toNat
  · rw [if_pos hbase, max_eq_left (Nat.succ_le_of_lt hbase), Option.map_some]
  · rw [if_neg hbase, if_pos h, max_eq_right (by omega), Option.map_some]

theorem instrFault_of_blockLength {i : Instr} {k : Nat} (hk : Spec.blockLength i = some k) (s : State) :
    instrFault i s = blockFault k s := by
  cases i with
  | drw | ldBcd | storeRegs | loadRegs =>
    cases hk
    rfl
  | _ => cases hk

section
variable {i : Instr} {k : Nat} (hk : Spec.blockLength i = some k) {s : State}
include hk

theorem exec_of_block_in_range (h : k = 0 ∨ s.i.toNat + k ≤ 0x1000) : exec i s = .next (completed i s) :=
  exec_of_no_fault ((instrFault_of_blockLength hk s).trans (blockFault_eq_none.mpr h))

theorem exec_of_block_out_of_range (h0 : k ≠ 0) (h : 0x1000 < s.i.toNat + k) :
    exec i s = .next (Spec.faultedState s .memoryOutOfRange (encode i) (max s.i.toNat 0x1000)) :=
  exec_of_instrFault ((instrFault_of_blockLength hk s).trans (blockFault_of_lt h0 h))

/-- The same with the recorded word as a number, for the three instructions whose low byte is their selector. -/
theorem exec_Fxkk_of_block_out_of_range {x : Reg} {kk : Byte} (henc : encode i = 0xF#4 ++ nibble x ++ kk) (h0 : k ≠ 0)
    (h : 0x1000 < s.i.toNat + k) : exec i s =
      .next (Spec.faultedState s .memoryOutOfRange (u16 (0xF000 + kk.toNat + x.val * 256)) (max s.i.toNat 0x1000)) := by
  rw [exec_of_block_out_of_range hk h0 h, henc, append_F_xkk]

end

/-! ### What the instructions leave -/

theorem State.readByte_eq_of_mem_eq {s t : State} (h : s.mem = t.mem) (a : Nat) : s.readByte a = t.readByte a :=
  congrArg (Memory.read · a) h

/-- The digits are below 256, so the bytes stored for them are the digits themselves (R153). -/
theorem byteAfterBcd_eq (s : State) (x : Reg) (a : Nat) : Spec.byteAfterBcd s x a = BitVec.toNat
    (if a = s.i.toNat then bcdHundreds (s.reg x) else if a = s.i.toNat + 1 then bcdTens (s.reg x)
      else if a = s.i.toNat + 2 then bcdUnits (s.reg x) else s.readByte a) := by
  simp only [apply_ite BitVec.toNat, bcdHundreds_toNat, bcdTens_toNat, bcdUnits_toNat]
  rfl

theorem State.afterBlock_i_eq (s : State) (x : Reg) : (s.afterBlock x).i = Spec.indexAfterBlock s x := by
  unfold State.afterBlock Spec.indexAfterBlock
  cases s.params.loadstoreIncrementsI <;> rfl

/-- An instruction that raises no fault and completes in a write of `I`. -/
theorem exec_of_setI {i : Instr} {s : State} {w : Word} (hf : instrFault i s = none)
    (hset : completed i s = (s.setI w).advance) : exec i s = .next { s with i := w, pc := Spec.pcPlus s 2 } := by
  rw [exec_of_no_fault hf, hset, State.advance_eq]
  rfl

theorem add_zextByte_eq (w : Word) (b : Byte) : w + zextByte b = u16 (w.toNat + b.toNat) := by
  apply BitVec.eq_of_toNat_eq
  simp [zextByte]

end Sys2Proof.Machine

namespace Sys2Proof

open Machine

/-- The pattern `cxll`, whose low byte selects the instruction. -/
theorem encoded_xLow {pat : Word} {mk : Reg → Instr} (hrow : ∀ x, rowOf (mk x) = (0xF0FF, pat))
    (hwf : ∀ x, (mk x).wf = true)
    (henc : ∀ x, encode (mk x) = BitVec.ofNat 4 (fieldN1 pat).val ++ nibble x ++ fieldKk pat) :
    Spec.Encoded 0xF0FF pat fun op => mk (Spec.x op) := by
  refine encoded_of_encode (fun _ => hrow _) (fun _ => hwf _) fun op hop => ?_
  have h1 : fieldN1 op = fieldN1 pat := hop ▸ (fieldN1_and (by decide)).symm
  have hkk : fieldKk op = fieldKk pat := hop ▸ (fieldKk_and (by decide)).symm
  rw [henc, Spec.x_eq]
  exact append_xkk (congrArg Fin.val h1) hkk

/-- Settles O13: the lowest address of the block above 0xFFF is `I` when `I` is above it, else 0x1000. -/
theorem blockAccessFaultsAtTheLowestAddress : Obligations.BlockAccessFaultsAtTheLowestAddress := by
  unfold Obligations.BlockAccessFaultsAtTheLowestAddress
  intro i k s hk
  refine ⟨?fault, ?completes⟩
  case fault =>
    intro j hj hout hlow
    have hmax : s.i.toNat + j = max s.i.toNat 0x1000 := by
      rcases Nat.eq_zero_or_pos j with rfl | hpos
      · omega
      · have hprev := hlow (j - 1) (by omega)
        omega
    rw [hmax]
    exact exec_of_block_out_of_range hk (by omega) (by omega)
  case completes =>
    intro hin
    have hrange : k = 0 ∨ s.i.toNat + k ≤ 0x1000 := by
      rcases Nat.eq_zero_or_pos k with h0 | hpos
      · exact .inl h0
      · have hlast := hin (k - 1) (by omega)
        exact .inr (by omega)
    exact ⟨_, exec_of_block_in_range hk hrange, completed_faulted i s, completed_faultRecord i s⟩

/-- Settles O28: three stores at three addresses; the record names 0x1000 when `I` itself is in memory. -/
theorem bcdStoresThreeDigits : Obligations.BcdStoresThreeDigits := by
  unfold Obligations.BcdStoresThreeDigits
  refine ⟨encoded_xLow (mk := .ldBcd) (fun _ => rfl) (fun _ => rfl) fun _ => rfl, fun x s hwf => ⟨?stores, ?fault⟩⟩
  case stores =>
    intro hb
    refine ⟨_, exec_of_block_in_range rfl (.inr (by omega)), ?frame, fun a => ?bytes⟩
    case frame =>
      rw [Spec.MemOnly, pcPlus_eq]
      rfl
    case bytes => exact BitVec.eq_of_toNat_eq ((readByte_completed_ldBcd hwf hb a).trans (byteAfterBcd_eq s x a))
  case fault =>
    exact fun hb => exec_Fxkk_of_block_out_of_range (kk := 0x33) rfl rfl (by decide) (by omega)

/-- Settles O29: the block move stores each register once, at its own address. -/
theorem storeRegistersWritesTheBlock : Obligations.StoreRegistersWritesTheBlock := by
  unfold Obligations.StoreRegistersWritesTheBlock
  refine ⟨encoded_xLow (mk := .storeRegs) (fun _ => rfl) (fun _ => rfl) fun _ => rfl,
    fun x s hwf => ⟨?stores, ?fault⟩⟩
  case stores =>
    intro hb
    obtain ⟨-, -, stored, kept⟩ := State.storeBlock_spec hwf (base := s.i.toNat) (x := x) (Nat.lt_succ_of_le hb)
    refine ⟨_, exec_of_block_in_range rfl (.inr (by omega)), ?frame, stored, kept⟩
    rw [← State.afterBlock_i_eq, pcPlus_eq]
    rfl
  case fault =>
    exact fun hb => exec_Fxkk_of_block_out_of_range (kk := 0x55) rfl rfl (Nat.succ_ne_zero _) (by omega)

/-- Settles O30: the block move loads each register once, from its own address. -/
theorem loadRegistersReadsTheBlock : Obligations.LoadRegistersReadsTheBlock := by
  unfold Obligations.LoadRegistersReadsTheBlock
  refine ⟨encoded_xLow (mk := .loadRegs) (fun _ => rfl) (fun _ => rfl) fun _ => rfl, fun x s => ⟨?loads, ?fault⟩⟩
  case loads =>
    intro hb
    refine ⟨_, exec_of_block_in_range rfl (.inr (by omega)), ?frame, reg_completed_loadRegs x s⟩
    rw [← State.afterBlock_i_eq, pcPlus_eq]
    rfl
  case fault =>
    exact fun hb => exec_Fxkk_of_block_out_of_range (kk := 0x65) rfl rfl (Nat.succ_ne_zero _) (by omega)

/-- Settles O31: the load reads, at the address of each register, the byte that the store put there. -/
theorem loadAfterStoreRestoresRegisters : Obligations.LoadAfterStoreRestoresRegisters := by
  unfold Obligations.LoadAfterStoreRestoresRegisters
  intro x s t u hwf hb hstore hmem hi
  obtain ⟨t', hstore', -, hstored, -⟩ := (storeRegistersWritesTheBlock.2 x s hwf).1 hb
  obtain rfl : t' = t := Host.Outcome.next.inj (hstore'.symm.trans hstore)
  obtain ⟨w, hload, -, hreg⟩ := (loadRegistersReadsTheBlock.2 x u).1 (hi.symm ▸ hb)
  refine ⟨w, hload, fun r => (hreg r).trans ?_⟩
  split
  case isTrue hr => rw [hi, State.readByte_eq_of_mem_eq hmem, hstored r hr]
  case isFalse => rfl

/-- Settles O27: each of the three completes in a write of `I`, and the sums are reduced once, to 16 bits. -/
theorem indexInstructionsWriteI : Obligations.IndexInstructionsWriteI := by
  unfold Obligations.IndexInstructionsWriteI
  refine ⟨encoded_nnn (mk := .ldI) (fun _ => rfl) (fun _ => rfl) fun _ => rfl,
    encoded_xLow (mk := .addI) (fun _ => rfl) (fun _ => rfl) fun _ => rfl,
    encoded_xLow (mk := .ldFont) (fun _ => rfl) (fun _ => rfl) fun _ => rfl, fun nnn x s => ⟨?ldI, ?addI, ?ldFont⟩⟩
  case ldI =>
    rw [← zextAddr_eq]
    exact exec_of_setI rfl rfl
  case addI =>
    rw [← add_zextByte_eq]
    exact exec_of_setI rfl rfl
  case ldFont => exact exec_of_setI rfl rfl

end Sys2Proof
end

section
/-! The display instructions (44_display.md R171-R175). A draw toggles a list of pixels in order; how often a pixel stands in
that list is `Spec.hits`, and on a grid at least as large as the sprite it stands there at most once. -/

namespace Sys2Proof.Machine

/-! ### A grid is its pixels -/

theorem Grid.get_eq_getElem {g : Grid} {px py : Nat} (hy : py < g.length) (hx : px < g[py].length) :
    Grid.get g px py = g[py][px] := by
  simp [Grid.get, hy, hx]

/-- Two grids of one size that agree on every pixel are the same data. -/
theorem Grid.eq_of_get_eq {g g' : Grid} {w h : Nat} (hg : Grid.wf g w h) (hg' : Grid.wf g' w h)
    (heq : ∀ px py, Grid.get g px py = Grid.get g' px py) : g = g' := by
  refine List.ext_getElem (hg.1.trans hg'.1.symm) fun py hy hy' => ?_
  have hrow := hg.2 _ (List.getElem_mem hy)
  have hrow' := hg'.2 _ (List.getElem_mem hy')
  refine List.ext_getElem (hrow.trans hrow'.symm) fun px hx hx' => ?_
  rw [← Grid.get_eq_getElem hy hx, ← Grid.get_eq_getElem hy' hx', heq]

/-! ### The pixels that a draw toggles -/

/-- The pixels that Dxyn toggles in `s`, in order. -/
def toggledPixels (s : State) (x y : Reg) (n : Nat) : List (Nat × Nat) :=
  toggledByRows s.params (s.reg x).toNat (s.reg y).toNat 0 (spriteRows s n)

theorem toggledByRows_map_range (p : Params) (px0 py0 r : Nat) (row : Nat → Byte) (n : Nat) :
    toggledByRows p px0 py0 r ((List.range n).map row) =
      (List.range n).flatMap fun j => toggledByRow p px0 py0 (r + j) (row j) := by
  induction n generalizing r row with
  | zero => rfl
  | succ n ih =>
    rw [List.range_succ_eq_map, List.map_cons, List.map_map, toggledByRows, ih, List.flatMap_cons, List.flatMap_map]
    simp only [Function.comp_apply, Nat.add_zero, Nat.succ_eq_add_one, Nat.add_assoc, Nat.add_comm 1]

section
variable (s : State) (x y : Reg) (n : Nat)

/-- Row after row of the sprite, as the bytes from `I` on give them (R175). -/
theorem toggledPixels_eq : toggledPixels s x y n = (List.range n).flatMap fun r =>
    toggledByRow s.params (s.reg x).toNat (s.reg y).toNat r (s.readByte (s.i.toNat + r)) := by
  rw [toggledPixels, spriteRows, addresses, List.map_map, toggledByRows_map_range]
  simp only [Function.comp_apply, Nat.zero_add]

/-- Bit 7 of a sprite byte is its column 0 (R171). -/
theorem getLsbD_eq_spriteBit (r c : Nat) : (s.readByte (s.i.toNat + r)).getLsbD (7 - c) = Spec.spriteBit s r c := by
  rw [Spec.spriteBit, BitVec.getLsbD, Nat.testBit_eq_decide_div_mod_eq]
  rfl

theorem toggledByRow_eq (r : Nat) :
    toggledByRow s.params (s.reg x).toNat (s.reg y).toNat r (s.readByte (s.i.toNat + r)) =
      ((List.range 8).filter (Spec.spriteBit s r)).map
        fun c => (((s.reg x).toNat + c) % s.params.displayW, ((s.reg y).toNat + r) % s.params.displayH) := by
  simp only [toggledByRow, getLsbD_eq_spriteBit]

/-- A pixel is toggled as often as a bit of the sprite falls on it. -/
theorem count_toggledPixels (px py : Nat) : (toggledPixels s x y n).count (px, py) = Spec.hits s x y n px py := by
  rw [toggledPixels_eq, List.count_flatMap, Spec.hits]
  congr 1
  refine List.map_congr_left fun r _ => ?_
  rw [Function.comp_apply, toggledByRow_eq, List.count, List.countP_map, List.countP_filter]
  refine List.countP_congr fun c _ => ?_
  simp [and_comm, and_assoc]

/-- A pixel is toggled when a bit of the sprite falls on it. -/
theorem mem_toggledPixels (px py : Nat) : (px, py) ∈ toggledPixels s x y n ↔ Spec.Covers s x y n px py := by
  simp only [toggledPixels_eq, toggledByRow_eq, List.mem_flatMap, List.mem_map, List.mem_filter, List.mem_range,
    Prod.mk.injEq, Spec.Covers]
  constructor
  · rintro ⟨r, hr, c, ⟨hc, hbit⟩, hx, hy⟩
    exact ⟨r, c, hr, hc, hbit, hx, hy⟩
  · rintro ⟨r, c, hr, hc, hbit, hx, hy⟩
    exact ⟨r, hr, c, ⟨hc, hbit⟩, hx, hy⟩

end

section
variable {s : State} {x y : Reg} {n px py : Nat}

theorem hits_pos_iff : 1 ≤ Spec.hits s x y n px py ↔ Spec.Covers s x y n px py := by
  rw [← count_toggledPixels, ← mem_toggledPixels]
  exact List.count_pos_iff

theorem lt_display_of_covers (hp : s.params.wf) (h : Spec.Covers s x y n px py) :
    px < s.params.displayW ∧ py < s.params.displayH :=
  mem_toggledByRows hp ((mem_toggledPixels s x y n px py).mpr h)

/-- A collision is a toggle of a lit pixel or of a pixel toggled before. -/
theorem collides_iff (hp : s.params.wf) : Spec.Collides s x y n ↔
    ∃ px py, Spec.Covers s x y n px py ∧ (s.pixel px py = true ∨ 2 ≤ Spec.hits s x y n px py) := by
  constructor
  · rintro ⟨px, py, -, -, ⟨hhit, hlit⟩ | htwice⟩
    · exact ⟨px, py, hits_pos_iff.mp hhit, .inl hlit⟩
    · exact ⟨px, py, hits_pos_iff.mp (by omega), .inr htwice⟩
  · rintro ⟨px, py, hcov, hlit⟩
    obtain ⟨hx, hy⟩ := lt_display_of_covers hp hcov
    exact ⟨px, py, hx, hy, hlit.imp_left fun hlit => ⟨hits_pos_iff.mpr hcov, hlit⟩⟩

/-! ### What a draw leaves -/

theorem pixel_completed_drw (h : s.Inv) (x y : Reg) (n px py : Nat) :
    (completed (.drw x y n) s).pixel px py = (s.pixel px py ^^ Spec.hits s x y n px py % 2 == 1) := by
  rw [← count_toggledPixels]
  exact (drawSprite_spec h.params _ _ _ h.pix).2.1 px py

theorem reg_completed_drw_of_ne (s : State) (x y : Reg) (n : Nat) {r : Reg} (hr : r ≠ 15) :
    (completed (.drw x y n) s).reg r = s.reg r :=
  (State.reg_setReg _ VF r _).trans (if_neg hr)

/-- The engine reports what the statements call a collision (R171). -/
theorem drawSprite_collides_iff (h : s.Inv) (x y : Reg) (n : Nat) :
    (drawSprite s.params (s.reg x) (s.reg y) (spriteRows s n) s.pix).2 = true ↔ Spec.Collides s x y n := by
  have hflag := (drawSprite_spec h.params (s.reg x) (s.reg y) (spriteRows s n) h.pix).2.2
  rw [← toggledPixels] at hflag
  simp only [hflag, collides_iff h.params, Prod.exists, mem_toggledPixels, count_toggledPixels, State.pixel]

/-- VF is the engine's collision flag (R175). -/
theorem reg_VF_completed_drw (h : s.Inv) (x y : Reg) (n : Nat) :
    ∃ c, (completed (.drw x y n) s).reg 15 = flagOf c ∧ (c = true ↔ Spec.Collides s x y n) :=
  ⟨_, (State.reg_setReg _ VF 15 _).trans (if_pos rfl), drawSprite_collides_iff h x y n⟩

theorem reg_VF_completed_drw_eq_one (h : s.Inv) :
    (completed (.drw x y n) s).reg 15 = 1 ↔ Spec.Collides s x y n := by
  obtain ⟨c, hreg, hc⟩ := reg_VF_completed_drw h x y n
  rw [hreg, ← hc]
  cases c <;> decide

theorem reg_VF_completed_drw_eq_zero (h : s.Inv) :
    (completed (.drw x y n) s).reg 15 = 0 ↔ ¬Spec.Collides s x y n := by
  obtain ⟨c, hreg, hc⟩ := reg_VF_completed_drw h x y n
  rw [hreg, ← hc]
  cases c <;> decide

/-- A draw moves neither the sprite nor, unless VF is one of them, its coordinates. -/
theorem hits_completed_drw (hx : x ≠ 15) (hy : y ≠ 15) (m px py : Nat) :
    Spec.hits (completed (.drw x y m) s) x y n px py = Spec.hits s x y n px py := by
  simp only [Spec.hits, reg_completed_drw_of_ne s x y m hx, reg_completed_drw_of_ne s x y m hy, completed_params]
  rfl

/-! ### A grid at least as large as the sprite -/

/-- Offsets below the grid's size stay apart when they are wrapped (R172). -/
theorem eq_of_wrapped_eq {a c d w : Nat} (hc : c < w) (hd : d < w) (h : (a + c) % w = (a + d) % w) : c = d :=
  (Nat.ModEq.add_left_cancel' a h).eq_of_lt_of_lt hc hd

theorem nodup_toggledPixels (hw : 8 ≤ s.params.displayW) (hh : n ≤ s.params.displayH) :
    (toggledPixels s x y n).Nodup := by
  simp only [toggledPixels_eq, toggledByRow_eq]
  refine List.nodup_flatMap.mpr ⟨fun r _ => ?columns, List.nodup_range.imp_of_mem ?rows⟩
  case columns =>
    refine (List.nodup_range.filter _).map_on fun c hc d hd hcd => ?_
    have hc := List.mem_range.mp (List.mem_of_mem_filter hc)
    have hd := List.mem_range.mp (List.mem_of_mem_filter hd)
    exact eq_of_wrapped_eq (hc.trans_le hw) (hd.trans_le hw) (Prod.ext_iff.mp hcd).1
  case rows =>
    intro r q hr hq hne px hpr hpq
    obtain ⟨c, -, rfl⟩ := List.mem_map.mp hpr
    obtain ⟨d, -, hd⟩ := List.mem_map.mp hpq
    have hr := List.mem_range.mp hr
    have hq := List.mem_range.mp hq
    exact hne (eq_of_wrapped_eq (hq.trans_le hh) (hr.trans_le hh) (Prod.ext_iff.mp hd).2).symm

section
variable (hw : 8 ≤ s.params.displayW) (hh : n ≤ s.params.displayH)
include hw hh

theorem hits_le_one (x y : Reg) (px py : Nat) : Spec.hits s x y n px py ≤ 1 := by
  rw [← count_toggledPixels]
  exact List.nodup_iff_count_le_one.mp (nodup_toggledPixels hw hh) _

/-- No pixel is toggled twice, so a collision is a lit pixel under the sprite. -/
theorem collides_iff_of_large (hp : s.params.wf) :
    Spec.Collides s x y n ↔ ∃ px py, Spec.Covers s x y n px py ∧ s.pixel px py = true := by
  have htwice (px py : Nat) : ¬2 ≤ Spec.hits s x y n px py :=
    Nat.not_le.mpr (Nat.lt_succ_of_le (hits_le_one hw hh x y px py))
  simp only [collides_iff hp, htwice, or_false]

theorem pixel_completed_drw_of_covers (h : s.Inv) (hcov : Spec.Covers s x y n px py) :
    (completed (.drw x y n) s).pixel px py = !s.pixel px py := by
  have hone : Spec.hits s x y n px py = 1 := Nat.le_antisymm (hits_le_one hw hh x y px py) (hits_pos_iff.mpr hcov)
  rw [pixel_completed_drw h, hone]
  exact Bool.xor_true _

end

theorem pixel_completed_drw_of_not_covers (h : s.Inv) (hcov : ¬Spec.Covers s x y n px py) :
    (completed (.drw x y n) s).pixel px py = s.pixel px py := by
  have hzero : Spec.hits s x y n px py = 0 := Nat.eq_zero_of_not_pos (mt hits_pos_iff.mp hcov)
  rw [pixel_completed_drw h, hzero]
  exact Bool.xor_false _

/-- The second draw toggles each pixel as often as the first. -/
theorem pix_completed_drw_twice (h : s.Inv) (hx : x ≠ 15) (hy : y ≠ 15) :
    (completed (.drw x y n) (completed (.drw x y n) s)).pix = s.pix := by
  have ht := h.completed (.drw x y n)
  have hpix := (ht.completed (.drw x y n)).pix
  simp only [completed_params] at hpix
  refine Grid.eq_of_get_eq hpix h.pix fun px py => ?_
  have hsecond := pixel_completed_drw ht x y n px py
  rw [hits_completed_drw hx hy, pixel_completed_drw h, Bool.xor_assoc, Bool.xor_self, Bool.xor_false] at hsecond
  exact hsecond

/-- On a blank display the first draw lights what the sprite covers, so the second one collides when it covers a pixel. -/
theorem collides_completed_drw_of_blank (h : s.Inv) (hx : x ≠ 15) (hy : y ≠ 15) (hw : 8 ≤ s.params.displayW)
    (hh : n ≤ s.params.displayH) (hblank : ∀ px py, s.pixel px py = false) :
    Spec.Collides (completed (.drw x y n) s) x y n ↔ ∃ px py, Spec.Covers s x y n px py := by
  have hcov (px py : Nat) : Spec.Covers (completed (.drw x y n) s) x y n px py ↔ Spec.Covers s x y n px py := by
    rw [← hits_pos_iff, hits_completed_drw hx hy, hits_pos_iff]
  rw [collides_iff_of_large (by simpa using hw) (by simpa using hh) (h.completed _).params]
  refine exists₂_congr fun px py => ?_
  rw [hcov, and_iff_left_iff_imp]
  intro hc
  rw [pixel_completed_drw_of_covers hw hh h hc, hblank]
  rfl

theorem exists_covers_iff :
    (∃ px py, Spec.Covers s x y n px py) ↔ ∃ r c, r < n ∧ c < 8 ∧ Spec.spriteBit s r c = true := by
  constructor
  · rintro ⟨-, -, r, c, hr, hc, hbit, -⟩
    exact ⟨r, c, hr, hc, hbit⟩
  · rintro ⟨r, c, hr, hc, hbit⟩
    exact ⟨_, _, r, c, hr, hc, hbit, rfl, rfl⟩

end

/-- The word that a faulting Dxyn records, as a number. -/
theorem encode_drw (x y : Reg) {n : Nat} (hn : n ≤ 15) :
    encode (.drw x y n) = u16 (0xD000 + x.val * 256 + y.val * 16 + n) := by
  apply BitVec.eq_of_toNat_eq
  have := x.isLt
  have := y.isLt
  rw [encode, toNat_xyn, nibble_toNat, nibble_toNat, BitVec.toNat_ofNat, BitVec.toNat_ofNat, BitVec.toNat_ofNat]
  omega

end Sys2Proof.Machine

namespace Sys2Proof

open Machine

theorem Spec.n_eq (op : Word) : Spec.n op = (fieldN op).val := (fieldN_val op).symm

/-- The words of Dxyn, the one row of the pattern `cxyn`. -/
theorem encoded_drw : Spec.Encoded 0xF000 0xD000 fun op => .drw (Spec.x op) (Spec.y op) (Spec.n op) := by
  refine encoded_of_encode (fun _ => rfl) (fun op => ?field_in_range) fun op hop => ?word
  case field_in_range => exact decide_eq_true (Nat.le_of_lt_succ (Nat.mod_lt _ (by decide)))
  case word =>
    have h1 : fieldN1 op = fieldN1 0xD000 := hop ▸ (fieldN1_and (by decide)).symm
    rw [Spec.x_eq, Spec.y_eq]
    exact append_xyn (congrArg Fin.val h1) (Spec.n_eq op).symm

/-- Settles O35: the draw toggles each pixel as often as a bit of the sprite falls on it, and a collision is the toggle of a
pixel that is lit or was toggled before. -/
theorem drawXorsTheSpriteAndReportsCollision : Obligations.DrawXorsTheSpriteAndReportsCollision := by
  unfold Obligations.DrawXorsTheSpriteAndReportsCollision
  refine ⟨encoded_drw, fun x y n s h hn => ⟨?draws, ?fault⟩⟩
  case draws =>
    intro hrange
    exact ⟨_, exec_of_block_in_range rfl hrange, State.advance_eq _, fun r hr => reg_completed_drw_of_ne s x y n hr,
      (reg_VF_completed_drw_eq_one h).mpr, (reg_VF_completed_drw_eq_zero h).mpr, wf_pix_completed h.params h.pix,
      pixel_completed_drw h x y n⟩
  case fault =>
    rintro ⟨h0, hout⟩
    rw [exec_of_block_out_of_range rfl h0 hout, encode_drw x y hn]

/-- Settles O36: offsets below the grid's size stay apart when wrapped, so no pixel stands twice in the list of toggles. -/
theorem largeGridTogglesNoPixelTwice : Obligations.LargeGridTogglesNoPixelTwice := by
  unfold Obligations.LargeGridTogglesNoPixelTwice
  intro x y n s h hn hw hh hrange
  refine ⟨_, exec_of_block_in_range rfl hrange, fun px py => pixel_completed_drw_of_covers hw hh h,
    fun px py => pixel_completed_drw_of_not_covers h, fun hlit => ?one, fun hunlit => ?zero, hits_le_one hw hh x y⟩
  case one => exact (reg_VF_completed_drw_eq_one h).mpr ((collides_iff_of_large hw hh h.params).mpr hlit)
  case zero =>
    rw [reg_VF_completed_drw_eq_zero h, collides_iff_of_large hw hh h.params]
    rintro ⟨px, py, hcov, hlit⟩
    exact absurd hlit (by simp [hunlit px py hcov])

/-- Settles O37: both draws toggle the same pixels equally often; what the first one lights on a blank display the second
one finds lit. -/
theorem drawingTwiceRestoresTheDisplay : Obligations.DrawingTwiceRestoresTheDisplay := by
  unfold Obligations.DrawingTwiceRestoresTheDisplay
  intro x y n s h hn hrange hx hy
  refine ⟨_, _, exec_of_block_in_range rfl hrange, exec_of_block_in_range rfl hrange, pix_completed_drw_twice h hx hy,
    fun hw hh hblank => ⟨?first, ?second⟩⟩
  case first =>
    rw [reg_VF_completed_drw_eq_zero h, collides_iff_of_large hw hh h.params]
    simp [hblank]
  case second =>
    rw [reg_VF_completed_drw_eq_one (h.completed _), collides_completed_drw_of_blank h hx hy hw hh hblank,
      exists_covers_iff]

/-- Settles O34: the new display is the unlit grid of `DISPLAY_W` x `DISPLAY_H` pixels. -/
theorem clearTurnsEveryPixelUnlit : Obligations.ClearTurnsEveryPixelUnlit := by
  unfold Obligations.ClearTurnsEveryPixelUnlit
  exact ⟨encoded_word (i := .cls) rfl rfl, fun s =>
    ⟨_, exec_of_no_fault rfl, State.advance_eq _, Grid.wf_unlit _ _, Grid.get_unlit _ _⟩⟩

end Sys2Proof
end

section
/-! The keypad and the timers (45_keypad_timers.md R190-R196): the index check of the key skips, the wait of Fx0A, the timer
moves, and the host's writes of one latch. -/

namespace Sys2Proof.Machine

/-! ### The index check of the key skips (R191, R192) -/

/-- A word of the pattern `cxkk` as a number, for any major opcode `c`. -/
theorem append_xkk_eq_u16 (c : BitVec 4) (x : Reg) (kk : Byte) :
    (c ++ nibble x ++ kk : Word) = u16 (c.toNat * 0x1000 + kk.toNat + x.val * 256) := by
  apply BitVec.eq_of_toNat_eq
  have := c.isLt
  have := x.isLt
  have := kk.isLt
  rw [toNat_xkk, nibble_toNat, BitVec.toNat_ofNat]
  omega

section
variable {x : Reg} {s : State}

theorem keyFault_of_gt (h : 15 < (s.reg x).toNat) : keyFault x s = some (.keyOutOfRange, (s.reg x).toNat) := if_pos h

theorem keyFault_of_le (h : (s.reg x).toNat ≤ 15) : keyFault x s = none := if_neg h.not_gt

/-- An instruction `Exkk` that checks the key of Vx, on an index that is no key's. -/
theorem exec_Exkk_of_key_out_of_range {i : Instr} (hf : instrFault i s = keyFault x s) {kk : Byte}
    (henc : encode i = 0xE#4 ++ nibble x ++ kk) (h : 15 < (s.reg x).toNat) : exec i s =
      .next (Spec.faultedState s .keyOutOfRange (u16 (0xE000 + kk.toNat + x.val * 256)) (s.reg x).toNat) := by
  rw [exec_of_instrFault (hf.trans (keyFault_of_gt h)), henc, append_xkk_eq_u16]
  rfl

end

/-! ### The wait for a key (R193) -/

theorem lowestKey_of_lowest {s : State} {k : Nat} (hk : k < 16) (hpressed : s.isPressed k = true)
    (hlow : ∀ j, j < k → s.isPressed j = false) : s.lowestKey = some ⟨k, hk⟩ :=
  (State.lowestKey_eq_some s ⟨k, hk⟩).mpr ⟨hpressed, fun j hj => hlow j.val hj⟩

theorem stateAfterStep_of_next {s t : State} (h : step s = .next t) : stateAfterStep s = t := by
  simp only [stateAfterStep, h]

/-! ### The host's writes of a latch (R190) -/

/-- A key's latch takes the value written, and nothing else changes. -/
theorem latchKey_of_lt (s : State) {k : Nat} (hk : k < 16) (b : Bool) :
    ∃ t, latchKey k b s = (.ok, t) ∧ t = { s with key := t.key } ∧
      ∀ j, t.isPressed j = if j = k then b else s.isPressed j :=
  ⟨s.setKey k b, if_neg (Nat.le_of_lt_succ hk).not_gt, rfl, State.isPressed_setKey s hk b⟩

theorem latchKey_of_gt (s : State) {k : Nat} (hk : 15 < k) (b : Bool) : latchKey k b s = (.rejected, s) := if_pos hk

end Sys2Proof.Machine

namespace Sys2Proof

open Machine

/-- Settles O20: the index check decides between the fault entry and a skip, whose test is the key's latch or
its negation. -/
theorem skipsOnKeys : Obligations.SkipsOnKeys := by
  unfold Obligations.SkipsOnKeys
  refine ⟨encoded_xLow (mk := .skp) (fun _ => rfl) (fun _ => rfl) fun _ => rfl,
    encoded_xLow (mk := .sknp) (fun _ => rfl) (fun _ => rfl) fun _ => rfl, fun x s => ⟨?fault, ?skip⟩⟩
  case fault =>
    exact fun hk => ⟨exec_Exkk_of_key_out_of_range (kk := 0x9E) rfl rfl hk,
      exec_Exkk_of_key_out_of_range (kk := 0xA1) rfl rfl hk⟩
  case skip =>
    exact fun hk => ⟨exec_of_skip (i := .skp x) (keyFault_of_le hk) rfl Iff.rfl,
      exec_of_skip (i := .sknp x) (keyFault_of_le hk) rfl (iff_of_eq (Bool.not_eq_true' _))⟩

/-- Settles O38: without a key pressed there is no lowest one, and the step waits; else the lowest one is written to Vx. -/
theorem keyWaitLoadsTheLowestKey : Obligations.KeyWaitLoadsTheLowestKey := by
  unfold Obligations.KeyWaitLoadsTheLowestKey
  refine ⟨encoded_xLow (mk := .ldKey) (fun _ => rfl) (fun _ => rfl) fun _ => rfl, fun x s => ⟨?waits, ?loads⟩⟩
  case waits =>
    refine fun hno => ⟨?exec, fun hs hi => ?step⟩
    case exec => rw [exec_of_no_fault rfl, completed_ldKey_of_none (noKey_iff.mp hno)]
    case step =>
      have hresult : stepResult s = .waitingKey := stepResult_of_returns ⟨hs, ⟨x, hi⟩, hno⟩
      rw [transact, hresult, stateAfterStep_of_next (step_of_waiting hs hi hno)]
  case loads =>
    intro k hk hpressed hlow
    exact exec_of_setReg rfl (completed_ldKey_of_some (lowestKey_of_lowest hk hpressed hlow) x)

/-- Settles O39: Fx07 completes in a write of Vx, Fx15 and Fx18 in a write of their timer. -/
theorem timerInstructionsMoveOneByte : Obligations.TimerInstructionsMoveOneByte := by
  unfold Obligations.TimerInstructionsMoveOneByte
  refine ⟨encoded_xLow (mk := .ldFromDt) (fun _ => rfl) (fun _ => rfl) fun _ => rfl,
    encoded_xLow (mk := .ldDt) (fun _ => rfl) (fun _ => rfl) fun _ => rfl,
    encoded_xLow (mk := .ldSt) (fun _ => rfl) (fun _ => rfl) fun _ => rfl, fun x s => ⟨?ldFromDt, ?ldDt, ?ldSt⟩⟩
  case ldFromDt => exact exec_of_setReg rfl rfl
  case ldDt | ldSt =>
    rw [exec_of_no_fault rfl, completed, State.advance_eq]
    rfl

/-- Settles O41: press and release write the two values of the latch, and the index check rejects both alike. -/
theorem pressAndReleaseSetOneLatch : Obligations.PressAndReleaseSetOneLatch := by
  unfold Obligations.PressAndReleaseSetOneLatch
  exact fun s k => ⟨fun hk => latchKey_of_lt s hk true, fun hk => latchKey_of_lt s hk false,
    fun hk => ⟨latchKey_of_gt s hk true, latchKey_of_gt s hk false⟩⟩

end Sys2Proof
end

section
/-! The fault latch and the host's transactions (60_exceptions.md): what a fault entry records and who raises it (R211-R213),
the two exits (R214), the rejected transactions (R215), and what every transaction does to the state (R222, R223). -/

namespace Sys2Proof.Machine

/-! ### What every transaction does to the state (R222) -/

/-- What a transaction can make of a state: leave it, or one of six changes. -/
inductive HostEffect (s : State) : State → Prop
  | unchanged : HostEffect s s
  | stepped {t : State} (h : step s = .next t) : HostEffect s t
  | reset : HostEffect s (resetBlock s)
  | stored (a : Nat) (b : Byte) : HostEffect s (s.storeByte a b)
  | latched (k : Nat) (b : Bool) : HostEffect s (s.setKey k b)
  | ticked : HostEffect s (tickTimers s)
  | skipped : HostEffect s s.leaveFault

theorem latchKey_hostEffect (k : Nat) (b : Bool) (s : State) : HostEffect s (latchKey k b s).2 := by
  unfold latchKey
  split
  · exact .unchanged
  · exact .latched k b

/-- A refused step and a rejected argument leave the state, as the three reads do. -/
theorem transact_hostEffect (t : Transaction) (s : State) : HostEffect s (transact t s).2 := by
  cases t with
  | readDisplay | readSound | readFault => exact .unchanged
  | reset => exact .reset
  | tickTimers => exact .ticked
  | press k => exact latchKey_hostEffect k true s
  | release k => exact latchKey_hostEffect k false s
  | load a b =>
    rw [transact, loadByte]
    split
    · exact .unchanged
    · exact .stored a b
  | skipFaulted =>
    rw [transact, skipFaulted]
    split
    · exact .skipped
    · exact .unchanged
  | step =>
    rw [transact]
    rcases stateAfterStep_cases s with ⟨hsame, -⟩ | hnext
    · rw [hsame]
      exact .unchanged
    · exact .stepped hnext

/-! ### The invariant under the host's changes -/

theorem resetOf_inv {p : Params} (hp : p.wf) (draws : Nat) : (State.resetOf p draws).Inv :=
  ⟨hp, Memory.wf_nil, Grid.wf_unlit _ _, nofun⟩

theorem State.Inv.storeByte {s : State} (h : s.Inv) (a : Nat) (b : Byte) : (s.storeByte a b).Inv where
  params := by simpa using h.params
  mem := State.wf_storeByte h.mem a b
  pix := by simpa using h.pix
  latch := by simpa using h.latch

theorem HostEffect.keeps_inv {s t : State} (e : HostEffect s t) (h : s.Inv) : t.Inv := by
  cases e with
  | unchanged => exact h
  | stepped hstep => exact step_keeps_inv h hstep
  | reset => exact resetOf_inv h.params _
  | stored a b => exact h.storeByte a b
  | latched | ticked => exact ⟨h.params, h.mem, h.pix, h.latch⟩
  | skipped => exact ⟨h.params, h.mem, h.pix, nofun⟩

/-- No step writes a parameter (00_scope.md R6; log 1). -/
theorem step_params {s t : State} (h : step s = .next t) : t.params = s.params := by
  obtain ⟨-, ⟨-, rfl⟩ | ⟨op, -, ⟨-, rfl⟩ | ⟨i, -, hi⟩⟩⟩ := step_cases h
  · rfl
  · rfl
  · rcases exec_answers hi with ⟨-, rfl⟩ | ⟨c, a, -, rfl⟩
    · exact completed_params i s
    · rfl

/-- No transaction writes a parameter, reset included (10_state.md R36; logs 1, 10). -/
theorem HostEffect.params_eq {s t : State} (e : HostEffect s t) : t.params = s.params := by
  cases e with
  | stepped hstep => exact step_params hstep
  | stored a b => exact State.storeByte_params s a b
  | unchanged | reset | latched | ticked | skipped => rfl

/-! ### What a fault entry records (R211, R213) -/

/-- A step that ends faulted raised the fault of its fetch, or that of the instruction it fetched. -/
theorem step_fault_cases {s t : State} (hstep : step s = .next t) (ht : t.faulted = true) :
    (s.fetch = none ∧ t = s.enterFault .fetchOutOfRange 0 s.pc.toNat) ∨
      ∃ i c a, s.fetch = some (encode i) ∧ s.nextInstr = some i ∧ instrFault i s = some (c, a) ∧
        t = s.enterFault c (encode i) a := by
  obtain ⟨hs, hfetch | ⟨op, hop, ⟨-, rfl⟩ | ⟨i, hdec, hi⟩⟩⟩ := step_cases hstep
  · exact .inl hfetch
  · cases hs.symm.trans ht
  · rcases exec_answers hi with ⟨-, rfl⟩ | ⟨c, a, hf, rfl⟩
    · cases hs.symm.trans ((completed_faulted i s).symm.trans ht)
    · exact .inr ⟨i, c, a, encode_of_decodeWord hdec ▸ hop, nextInstr_eq_some_iff.mpr ⟨op, hop, hdec⟩, hf, rfl⟩

/-- The lowest address out of range is one of the block's, and those before it are in range (43_index_memory.md R156). -/
theorem lowest_of_firstOutOfRange {base k a : Nat} (h : firstOutOfRange base k = some a) :
    ∃ j, j < k ∧ a = base + j ∧ 0xFFF < base + j ∧ ∀ j', j' < j → base + j' ≤ 0xFFF := by
  simp only [firstOutOfRange, addresses, List.find?_map, Option.map_eq_some_iff, List.find?_range_eq_some] at h
  obtain ⟨j, ⟨hout, hj, hlow⟩, rfl⟩ := h
  exact ⟨j, List.mem_range.mp hj, rfl, by simpa using hout, by simpa using hlow⟩

/-- The rows of R211's table that an instruction can raise: who raises the cause, on what condition, with what address. -/
def FaultRow (i : Instr) (s : State) (c : FaultCause) (a : Nat) : Prop :=
  match c with
  | .none | .fetchOutOfRange => False
  | .stackOverflow => (∃ nnn, i = .call nnn) ∧ s.sp.val = 16 ∧ a = 0
  | .stackUnderflow => i = .ret ∧ s.sp.val = 0 ∧ a = 0
  | .memoryOutOfRange => ∃ k j, Spec.blockLength i = some k ∧ j < k ∧ a = s.i.toNat + j ∧ 0xFFF < s.i.toNat + j ∧
      ∀ j', j' < j → s.i.toNat + j' ≤ 0xFFF
  | .keyOutOfRange => ∃ x, (i = .skp x ∨ i = .sknp x) ∧ 15 < (s.reg x).toNat ∧ a = (s.reg x).toNat

theorem faultRow_of_blockFault {i : Instr} {k : Nat} (hk : Spec.blockLength i = some k) {s : State} {c : FaultCause}
    {a : Nat} (h : blockFault k s = some (c, a)) : FaultRow i s c a := by
  obtain ⟨_, hfirst, ⟨⟩⟩ := Option.map_eq_some_iff.mp h
  obtain ⟨j, hj⟩ := lowest_of_firstOutOfRange hfirst
  exact ⟨k, j, hk, hj⟩

theorem faultRow_of_keyFault {i : Instr} {x : Reg} (hx : i = .skp x ∨ i = .sknp x) {s : State} {c : FaultCause} {a : Nat}
    (h : keyFault x s = some (c, a)) : FaultRow i s c a := by
  obtain ⟨hout, ⟨⟩⟩ := Option.ite_none_right_eq_some.mp h
  exact ⟨x, hx, hout, rfl⟩

/-- Every fault that an instruction raises is in the table. -/
theorem faultRow_of_instrFault {i : Instr} {s : State} {c : FaultCause} {a : Nat} (h : instrFault i s = some (c, a)) :
    FaultRow i s c a := by
  cases i with
  | ret =>
    obtain ⟨hsp, ⟨⟩⟩ := Option.ite_none_right_eq_some.mp h
    exact ⟨rfl, congrArg Fin.val hsp, rfl⟩
  | call nnn =>
    obtain ⟨hsp, ⟨⟩⟩ := Option.ite_none_right_eq_some.mp h
    exact ⟨⟨nnn, rfl⟩, congrArg Fin.val hsp, rfl⟩
  | drw | ldBcd | storeRegs | loadRegs => exact faultRow_of_blockFault rfl h
  | skp => exact faultRow_of_keyFault (.inl rfl) h
  | sknp => exact faultRow_of_keyFault (.inr rfl) h
  | _ => cases h

/-- An instruction runs after its fetch, so it does not raise the fetch's fault. -/
theorem instrFault_cause_ne_fetchOutOfRange {i : Instr} {s : State} {c : FaultCause} {a : Nat}
    (h : instrFault i s = some (c, a)) : c ≠ .fetchOutOfRange := by
  rintro rfl
  exact faultRow_of_instrFault h

/-! ### The transactions, each on its condition (R214, R215, R217, R222) -/

theorem transact_step_of_faulted {s : State} (hs : s.faulted = true) :
    transact .step s = (.stepped .refusedFaulted, s) := by
  simp only [transact, stepResult_of_faulted hs, stateAfterStep, step_of_faulted hs]

theorem skipFaulted_of_faulted {s : State} (hs : s.faulted = true) :
    skipFaulted s = (.ok, { s with pc := Spec.pcPlus s 2, faulted := false }) := by
  rw [pcPlus_eq]
  exact if_pos hs

theorem skipFaulted_of_not_faulted {s : State} (hs : s.faulted = false) : skipFaulted s = (.rejected, s) :=
  if_neg (Bool.eq_false_iff.mp hs)

theorem loadByte_of_le {a : Nat} (ha : a ≤ 0xFFF) (b : Byte) (s : State) : loadByte a b s = (.ok, s.storeByte a b) :=
  if_neg ha.not_gt

theorem loadByte_of_gt {a : Nat} (ha : 0xFFF < a) (b : Byte) (s : State) : loadByte a b s = (.rejected, s) := if_pos ha

/-- A timer after a tick, as the spec's arithmetic writes it (R217). -/
theorem decrementFloored_eq (b : Byte) : decrementFloored b = u8 (b.toNat - 1) := by
  rw [← decrementFloored_toNat, u8, BitVec.ofNat_toNat, BitVec.setWidth_eq]

end Sys2Proof.Machine

namespace Sys2Proof

open Machine

/-- Settles O48, by induction on the list: each transaction is one of the effects of `HostEffect`, and each of them keeps the
invariant and the parameters. -/
theorem transactionsKeepTheInvariant : Obligations.TransactionsKeepTheInvariant := by
  unfold Obligations.TransactionsKeepTheInvariant
  intro ts s h
  refine runTransactions_induction (P := fun u => u.Inv ∧ u.params = s.params) ?keep ts s ⟨h, rfl⟩
  rintro t u ⟨hinv, hparams⟩
  have heffect := transact_hostEffect t u
  exact ⟨heffect.keeps_inv hinv, heffect.params_eq.trans hparams⟩

/-- Settles O11: the step ended in the fault entry of its fetch, whose word is 0, or of the fetched instruction. -/
theorem faultEntryChangesOnlyTheLatch : Obligations.FaultEntryChangesOnlyTheLatch := by
  unfold Obligations.FaultEntryChangesOnlyTheLatch
  intro s t _ hstep ht
  have hresult := stepResult_of_fault hstep ht
  obtain ⟨-, rfl⟩ | ⟨i, c, a, hop, -, hf, rfl⟩ := step_fault_cases hstep ht
  · exact ⟨rfl, rfl, fun _ => rfl, fun hc => absurd rfl hc, hresult⟩
  · exact ⟨rfl, rfl, fun hc => absurd hc (instrFault_cause_ne_fetchOutOfRange hf), fun _ => hop, hresult⟩

/-- Settles O12: the fetch faults above 0xFFE alone, and every fault of an instruction has its row in the table. -/
theorem faultsAreThoseOfTheTable : Obligations.FaultsAreThoseOfTheTable := by
  unfold Obligations.FaultsAreThoseOfTheTable
  refine ⟨by decide, fun s t _ hstep ht => ?_⟩
  obtain ⟨hfetch, rfl⟩ | ⟨i, c, a, -, hi, hf, rfl⟩ := step_fault_cases hstep ht
  · exact ⟨fetch_eq_none.mp hfetch, rfl⟩
  · have hrow := faultRow_of_instrFault hf
    rw [State.enterFault_faultRecord]
    cases c with
    | none | fetchOutOfRange => exact False.elim hrow
    | stackOverflow =>
      obtain ⟨⟨nnn, rfl⟩, hfull⟩ := hrow
      exact ⟨⟨nnn, hi⟩, hfull⟩
    | stackUnderflow =>
      obtain ⟨rfl, hempty⟩ := hrow
      exact ⟨hi, hempty⟩
    | memoryOutOfRange =>
      obtain ⟨k, j, hblock⟩ := hrow
      exact ⟨i, k, j, hi, hblock⟩
    | keyOutOfRange =>
      obtain ⟨x, rfl | rfl, hkey⟩ := hrow
      · exact ⟨x, .inl hi, hkey⟩
      · exact ⟨x, .inr hi, hkey⟩

/-- Settles O14: the latch decides the step and the skip, and reset clears it. -/
theorem faultedBlockRefusesStepsUntilSkipOrReset : Obligations.FaultedBlockRefusesStepsUntilSkipOrReset := by
  unfold Obligations.FaultedBlockRefusesStepsUntilSkipOrReset
  exact fun s hs => ⟨step_of_faulted hs, transact_step_of_faulted hs, skipFaulted_of_faulted hs, rfl⟩

/-- Settles O40: the decrement floored at 0 is the subtraction of natural numbers. -/
theorem tickDecrementsBothTimers : Obligations.TickDecrementsBothTimers := by
  unfold Obligations.TickDecrementsBothTimers
  intro s
  rw [transact, tickTimers, decrementFloored_eq, decrementFloored_eq]

/-- Settles O42: each range check, and the latch for skip and step, rejects and returns the state as it is. -/
theorem hostErrorsChangeNothing : Obligations.HostErrorsChangeNothing := by
  unfold Obligations.HostErrorsChangeNothing
  exact fun s => ⟨fun k hk => ⟨latchKey_of_gt s hk true, latchKey_of_gt s hk false⟩, fun a b ha => loadByte_of_gt ha b s,
    skipFaulted_of_not_faulted, transact_step_of_faulted⟩

/-- Settles O43: an accepted load is one store inside the memory, and a read returns the state it is given. -/
theorem loadWritesOneByteAndReadsChangeNothing : Obligations.LoadWritesOneByteAndReadsChangeNothing := by
  unfold Obligations.LoadWritesOneByteAndReadsChangeNothing
  refine fun s h => ⟨fun a b ha => ?load, rfl, rfl, rfl⟩
  case load =>
    exact ⟨s.storeByte a b, loadByte_of_le ha b s, State.storeByte_eq s a b, State.wf_storeByte h a b,
      State.readByte_storeByte h (Nat.lt_succ_of_le ha) b⟩

end Sys2Proof
end

section
/-! The reset state (70_reset_and_hazards.md R240): what each accessor reads in it, for every instance. -/

namespace Sys2Proof.Machine

section
variable (p : Params) (draws : Nat)

@[simp] theorem State.reg_resetOf (r : Reg) : (State.resetOf p draws).reg r = 0 :=
  Vector.getElem_replicate r.isLt

@[simp] theorem State.stackAt_resetOf (j : Nat) : (State.resetOf p draws).stackAt j = 0 := by
  rw [State.stackAt, State.resetOf, Vector.getElem?_replicate]
  split <;> rfl

@[simp] theorem State.isPressed_resetOf (k : Nat) : (State.resetOf p draws).isPressed k = false := by
  rw [State.isPressed, State.resetOf, Vector.getElem?_replicate]
  split <;> rfl

/-- No cell is listed, so every cell reads 0 (10_state.md R31). -/
@[simp] theorem State.readByte_resetOf (a : Nat) : (State.resetOf p draws).readByte a = 0 := rfl

@[simp] theorem State.pixel_resetOf (px py : Nat) : (State.resetOf p draws).pixel px py = false :=
  Grid.get_unlit p.displayW p.displayH px py

end

end Sys2Proof.Machine

namespace Sys2Proof

open Machine

/-- Settles O44: both states are the reset of the instance with the old parameters, for one count of draws or another. -/
theorem resetZeroesTheState : Obligations.ResetZeroesTheState := by
  unfold Obligations.ResetZeroesTheState
  intro s t ht
  obtain ⟨draws, rfl⟩ : ∃ draws, t = State.resetOf s.params draws := ht.elim (⟨_, ·⟩) (⟨_, ·⟩)
  exact ⟨State.reg_resetOf _ _, rfl, State.resetOf_pc _ _, rfl, State.stackAt_resetOf _ _, rfl, rfl,
    State.readByte_resetOf _ _, Grid.wf_unlit _ _, State.pixel_resetOf _ _, State.isPressed_resetOf _ _, rfl, rfl,
    State.resetOf_params _ _⟩

/-- Settles O46: the default instance is one of those that have a pixel. -/
theorem resetSatisfiesTheInvariant : Obligations.ResetSatisfiesTheInvariant := by
  unfold Obligations.ResetSatisfiesTheInvariant
  exact ⟨resetOf_inv (by decide) 0, fun p k hp => resetOf_inv hp k⟩

end Sys2Proof
end

section
/-! Runs of steps alone (70_reset_and_hazards.md R244, R246, R247, R249; log 12): the zero slide, the states that a step
leaves as they are, and the step that stays within the limits. -/

namespace Sys2Proof.Machine

/-! ### A run, by its first step -/

theorem run_succ_of_step {s t : State} (h : step s = .next t) (k : Nat) :
    Host.Core.run core (k + 1) s = Host.Core.run core k t := by
  have hcore : core.step s = .next t := h
  simp only [Host.Core.run, hcore]

/-- A state that its step leaves as it is stays so for ever. -/
theorem run_of_step_self {s : State} (h : step s = .next s) (k : Nat) : Host.Core.run core k s = .next s := by
  induction k with
  | zero => rfl
  | succ k ih => rw [run_succ_of_step h, ih]

/-! ### Zeroed memory (R244) -/

/-- The zero word is unrecognized, so a step over two zero bytes advances (40_step.md R95). -/
theorem step_of_zero_bytes {s : State} (hs : s.faulted = false) (hpc : s.pc.toNat ≤ 0xFFE)
    (hhi : s.readByte s.pc.toNat = 0) (hlo : s.readByte (s.pc.toNat + 1) = 0) : step s = .next s.advance :=
  step_of_unrecognized hs (fetch_of_bytes (op := 0) hpc hhi hlo) (by decide)

/-- From `PC` = p over zeroed memory that reaches to p + 2k, k steps move `PC` to p + 2k and change nothing else. -/
theorem run_of_zero_bytes {s : State} (hs : s.faulted = false) {p : Nat} (hpc : s.pc = u16 p) (k : Nat)
    (hend : p + 2 * k ≤ 0x1000) (hzero : ∀ a, p ≤ a → a < p + 2 * k → s.readByte a = 0) :
    Host.Core.run core k s = .next { s with pc := u16 (p + 2 * k) } := by
  induction k generalizing s p with
  | zero =>
    rw [Nat.mul_zero, Nat.add_zero, ← hpc]
    rfl
  | succ k ih =>
    have hp : s.pc.toNat = p := by
      rw [hpc, BitVec.toNat_ofNat]
      omega
    have hstep : step s = .next s.advance := by
      apply step_of_zero_bytes hs <;> rw [hp]
      · omega
      · exact hzero p le_rfl (by omega)
      · exact hzero (p + 1) (by omega) (by omega)
    have hadvance : s.advance.pc = u16 (p + 2) := by
      rw [State.advance_pc, hpc]
      exact (BitVec.ofNat_add p 2).symm
    have hrest := ih (s := s.advance) hs hadvance (by omega) fun a hlo hhi => hzero a (by omega) (by omega)
    rw [run_succ_of_step hstep, hrest, Nat.mul_succ, Nat.add_assoc, Nat.add_comm 2]
    rfl

/-! ### Idle states (R247, R249) -/

theorem step_of_self_jump {s : State} {nnn : Addr} (hs : s.faulted = false) (hi : s.nextInstr = some (.jp nnn))
    (hpc : nnn.toNat = s.pc.toNat) : step s = .next s := by
  rw [step_of_nextInstr hs hi, exec_jp, hpc, u16, BitVec.ofNat_toNat, BitVec.setWidth_eq]

/-! ### A step within the limits (R246) -/

/-- A step is safe when the fetch succeeds and the instruction, if the word is one, is on no row of R211's table. -/
theorem safeStep_of_no_faultRow {s : State} (hs : s.faulted = false) (hpc : s.pc.toNat ≤ 0xFFE)
    (h : ∀ i c a, s.nextInstr = some i → ¬FaultRow i s c a) : SafeStep s := by
  obtain ⟨t, hstep⟩ := step_of_not_faulted hs
  refine ⟨t, hstep, Bool.eq_false_iff.mpr fun ht => ?_⟩
  obtain ⟨hfetch, -⟩ | ⟨i, c, a, -, hi, hf, -⟩ := step_fault_cases hstep ht
  · exact hpc.not_gt (fetch_eq_none.mp hfetch)
  · exact h i c a hi (faultRow_of_instrFault hf)

end Sys2Proof.Machine

namespace Sys2Proof

open Machine

/-- Settles O53: the slide from `PC` = 0 over the 512 zero bytes. -/
theorem zeroSlideReachesProgramBase : Obligations.ZeroSlideReachesProgramBase := by
  unfold Obligations.ZeroSlideReachesProgramBase
  intro s k hs hpc hzero hk
  have hslide := run_of_zero_bytes hs (p := 0) (BitVec.eq_of_toNat_eq hpc) k (by omega) fun a _ ha => hzero a (by omega)
  rwa [Nat.zero_add] at hslide

/-- Settles O54: the step of either state answers the state itself. -/
theorem idleStatesDoNotChange : Obligations.IdleStatesDoNotChange := by
  unfold Obligations.IdleStatesDoNotChange
  rintro s k hs (⟨nnn, hi, hpc⟩ | ⟨⟨x, hi⟩, hk⟩)
  · exact run_of_step_self (step_of_self_jump hs hi hpc) k
  · exact run_of_step_self (step_of_waiting hs hi hk) k

/-- Settles O55: each limit excludes the condition of one row of R211's table. -/
theorem respectfulStepIsSafe : Obligations.RespectfulStepIsSafe := by
  unfold Obligations.RespectfulStepIsSafe
  intro s hs hpc hlimits
  refine safeStep_of_no_faultRow hs hpc fun i c a hi hrow => ?_
  obtain ⟨hcall, hret, hblock, hkey⟩ := hlimits i hi
  cases c with
  | none | fetchOutOfRange => exact hrow
  | stackOverflow =>
    obtain ⟨hi, hfull, -⟩ := hrow
    exact (hcall hi).ne hfull
  | stackUnderflow =>
    obtain ⟨hi, hempty, -⟩ := hrow
    exact (hret hi).ne' hempty
  | memoryOutOfRange =>
    obtain ⟨k, j, hk, hj, -, hout, -⟩ := hrow
    exact (Nat.le_of_lt_succ (hblock k j hk hj)).not_gt hout
  | keyOutOfRange =>
    obtain ⟨x, hi, hout, -⟩ := hrow
    exact (Nat.le_of_lt_succ (hkey x hi)).not_gt hout

end Sys2Proof
end
